-- ==== Sys2Proof/Word.lean ====
section
/-! DEFINITION. The bit-vector types of the block, one per width parameter of 00_scope.md R8, and the line levels of R12. -/

namespace Sys2Proof

/-- Host register data, DATA_W = 32 (R8). -/
abbrev Word := BitVec 32

/-- One byte of the frame (R8: "The frame bytes are 8 bits"). -/
abbrev Byte := BitVec 8

/-- A host access word, HAW_W = 8 (R8, 30_encoding.md R80). -/
abbrev Haw := BitVec 8

/-- The count of the microsecond timer, TMR_W = 16 (R8, 10_state.md R23). -/
abbrev TmrCount := BitVec 16

/-- The RequestLow hold counter, HOLD_W = 11 (R8, 10_state.md R22). -/
abbrev HoldCount := BitVec 11

/-- The bit index, BITIDX_W = 6 (R8, 10_state.md R25). -/
abbrev BitIdx := BitVec 6

/-- Wall-clock seconds, NOW_W = 32 (R8, 10_state.md R32, R34). -/
abbrev Seconds := BitVec 32

/-- A stored reading, 16 bits (R8, 10_state.md R29, R30). -/
abbrev Tenths := BitVec 16

/-- A level of the line: High is 1 and Low is 0 (R12). -/
abbrev Level := Bool

/-- High (R12). -/
abbrev high : Level := true

/-- Low (R12). -/
abbrev low : Level := false

end Sys2Proof
end

