-- ==== Sys2Proof/Syntax.lean ====
section
/-! DEFINITION. The host accesses, one constructor per row of spec/opcode_table.json (30_encoding.md R83, R90). -/

namespace Sys2Proof

/-- A host access. The only operand is wdata, and only a write has one (30_encoding.md R84); the wall-clock value is
a side operand and stands in State. Of a reserved access the model keeps every bit that its row leaves free: W, the
low bits, and wdata where it is a write (R82, R204). -/
inductive Instr where
  | rdStatus
  | rdResult
  | rdHum
  | rdTemp
  | rdCfg
  | rdCmd
  | rdLastpoll
  | rdFrameHi
  | rdFrameCk
  | rdTimer
  | rdPhase
  | rdRsvdB
  | rdRsvdC
  | rdRsvdD
  | rdRsvdE
  | rdRsvdF
  | wrStatus (wdata : Word)
  | wrResult (wdata : Word)
  | wrHum (wdata : Word)
  | wrTemp (wdata : Word)
  | wrCfg (wdata : Word)
  | wrCmd (wdata : Word)
  | wrLastpoll (wdata : Word)
  | wrFrameHi (wdata : Word)
  | wrFrameCk (wdata : Word)
  | wrTimer (wdata : Word)
  | wrPhase (wdata : Word)
  | wrRsvdB (wdata : Word)
  | wrRsvdC (wdata : Word)
  | wrRsvdD (wdata : Word)
  | wrRsvdE (wdata : Word)
  | wrRsvdF (wdata : Word)
  | rsv6 (w : Bool) (rest : BitVec 6) (wdata : Word)
  | rsv5 (w : Bool) (rest : BitVec 5) (wdata : Word)
  | rsv4 (w : Bool) (rest : BitVec 4) (wdata : Word)
deriving DecidableEq, Repr

/-- Field W of the access (30_encoding.md R81): true for a write. -/
def Instr.isWrite : Instr → Bool
  | .rdStatus => false
  | .rdResult => false
  | .rdHum => false
  | .rdTemp => false
  | .rdCfg => false
  | .rdCmd => false
  | .rdLastpoll => false
  | .rdFrameHi => false
  | .rdFrameCk => false
  | .rdTimer => false
  | .rdPhase => false
  | .rdRsvdB => false
  | .rdRsvdC => false
  | .rdRsvdD => false
  | .rdRsvdE => false
  | .rdRsvdF => false
  | .wrStatus _ => true
  | .wrResult _ => true
  | .wrHum _ => true
  | .wrTemp _ => true
  | .wrCfg _ => true
  | .wrCmd _ => true
  | .wrLastpoll _ => true
  | .wrFrameHi _ => true
  | .wrFrameCk _ => true
  | .wrTimer _ => true
  | .wrPhase _ => true
  | .wrRsvdB _ => true
  | .wrRsvdC _ => true
  | .wrRsvdD _ => true
  | .wrRsvdE _ => true
  | .wrRsvdF _ => true
  | .rsv6 w _ _ => w
  | .rsv5 w _ _ => w
  | .rsv4 w _ _ => w

end Sys2Proof
end

