-- ==== Sys2Proof/WellFormed.lean ====
section
/-! DEFINITION. Which terms of Instr stand for an access: a reserved read carries no wdata (30_encoding.md R80: wdata exists "for writes" only). Every other operand is any value its type holds. -/

namespace Sys2Proof

/-- The operand check of a reserved access: only a write carries wdata, so a read's is zero. -/
def reservedOperandOk (w : Bool) (wdata : Word) : Bool := w || wdata == 0

/-- The check, one arm per constructor. -/
def Instr.wellFormed : Instr → Bool
  | .rdStatus => true
  | .rdResult => true
  | .rdHum => true
  | .rdTemp => true
  | .rdCfg => true
  | .rdCmd => true
  | .rdLastpoll => true
  | .rdFrameHi => true
  | .rdFrameCk => true
  | .rdTimer => true
  | .rdPhase => true
  | .rdRsvdB => true
  | .rdRsvdC => true
  | .rdRsvdD => true
  | .rdRsvdE => true
  | .rdRsvdF => true
  | .wrStatus _ => true
  | .wrResult _ => true
  | .wrHum _ => true
  | .wrTemp _ => true
  | .wrCfg _ => true
  | .wrCmd _ => true
  | .wrLastpoll _ => true
  | .wrFrameHi _ => true
  | .wrFrameCk _ => true
  | .wrTimer _ => true
  | .wrPhase _ => true
  | .wrRsvdB _ => true
  | .wrRsvdC _ => true
  | .wrRsvdD _ => true
  | .wrRsvdE _ => true
  | .wrRsvdF _ => true
  | .rsv6 w _ wdata => reservedOperandOk w wdata
  | .rsv5 w _ wdata => reservedOperandOk w wdata
  | .rsv4 w _ wdata => reservedOperandOk w wdata

/-- The check as a proposition. -/
abbrev Instr.WellFormed (i : Instr) : Prop := i.wellFormed = true

end Sys2Proof
end

