-- ==== Sys2Proof/Decode.lean ====
section
/-! DEFINITION. From a host access word and its wdata to the access, and back (30_encoding.md R80 to R85, R90).
Decoding is total and refuses nothing: "Every haw value has a defined meaning, so a decoder is total" (R85). -/

namespace Sys2Proof

/-- What the host presents on the ports haw and wdata (30_encoding.md R80; 10_state.md R54). -/
structure AccessWord where
  haw : Haw
  wdata : Word
deriving DecidableEq, Repr

/-- Field W, bit 7 (R80): true is a write. -/
def hawW (haw : Haw) : Bool := haw.getLsbD 7

/-- Field RSV, bits 6:4 (R80). -/
def hawRsv (haw : Haw) : BitVec 3 := haw.extractLsb' 4 3

/-- Field REG, bits 3:0 (R80). -/
def hawReg (haw : Haw) : BitVec 4 := haw.extractLsb' 0 4

/-- The wdata an access with field W carries: only a write has one (R80, R84). -/
def writeData (w : Bool) (wdata : Word) : Word := bif w then wdata else 0

/-- The read of the register with this index (R83). The last arm is index 0xF. -/
def decodeRead (reg : BitVec 4) : Instr :=
  match reg.toNat with
  | 0x0 => .rdStatus
  | 0x1 => .rdResult
  | 0x2 => .rdHum
  | 0x3 => .rdTemp
  | 0x4 => .rdCfg
  | 0x5 => .rdCmd
  | 0x6 => .rdLastpoll
  | 0x7 => .rdFrameHi
  | 0x8 => .rdFrameCk
  | 0x9 => .rdTimer
  | 0xA => .rdPhase
  | 0xB => .rdRsvdB
  | 0xC => .rdRsvdC
  | 0xD => .rdRsvdD
  | 0xE => .rdRsvdE
  | _ => .rdRsvdF

/-- The write of the register with this index (R83). The last arm is index 0xF. -/
def decodeWrite (reg : BitVec 4) (wdata : Word) : Instr :=
  match reg.toNat with
  | 0x0 => .wrStatus wdata
  | 0x1 => .wrResult wdata
  | 0x2 => .wrHum wdata
  | 0x3 => .wrTemp wdata
  | 0x4 => .wrCfg wdata
  | 0x5 => .wrCmd wdata
  | 0x6 => .wrLastpoll wdata
  | 0x7 => .wrFrameHi wdata
  | 0x8 => .wrFrameCk wdata
  | 0x9 => .wrTimer wdata
  | 0xA => .wrPhase wdata
  | 0xB => .wrRsvdB wdata
  | 0xC => .wrRsvdC wdata
  | 0xD => .wrRsvdD wdata
  | 0xE => .wrRsvdE wdata
  | _ => .wrRsvdF wdata

/-- The access that a word stands for. The reserved rows of R90 are told apart by the highest set bit of RSV:
RSV_6 has mask 0x40 match 0x40, RSV_5 mask 0x60 match 0x20, RSV_4 mask 0x70 match 0x10. -/
def decode (a : AccessWord) : Instr :=
  let w := hawW a.haw
  bif a.haw.getLsbD 6 then .rsv6 w (a.haw.extractLsb' 0 6) (writeData w a.wdata)
  else bif a.haw.getLsbD 5 then .rsv5 w (a.haw.extractLsb' 0 5) (writeData w a.wdata)
  else bif a.haw.getLsbD 4 then .rsv4 w (a.haw.extractLsb' 0 4) (writeData w a.wdata)
  else bif w then decodeWrite (hawReg a.haw) a.wdata
  else decodeRead (hawReg a.haw)

/-- The word of an access (R83: haw = (W << 7) | REG). A read presents no wdata; it is written as zero. -/
def encode : Instr → AccessWord
  | .rdStatus => ⟨0x00, 0⟩
  | .rdResult => ⟨0x01, 0⟩
  | .rdHum => ⟨0x02, 0⟩
  | .rdTemp => ⟨0x03, 0⟩
  | .rdCfg => ⟨0x04, 0⟩
  | .rdCmd => ⟨0x05, 0⟩
  | .rdLastpoll => ⟨0x06, 0⟩
  | .rdFrameHi => ⟨0x07, 0⟩
  | .rdFrameCk => ⟨0x08, 0⟩
  | .rdTimer => ⟨0x09, 0⟩
  | .rdPhase => ⟨0x0A, 0⟩
  | .rdRsvdB => ⟨0x0B, 0⟩
  | .rdRsvdC => ⟨0x0C, 0⟩
  | .rdRsvdD => ⟨0x0D, 0⟩
  | .rdRsvdE => ⟨0x0E, 0⟩
  | .rdRsvdF => ⟨0x0F, 0⟩
  | .wrStatus d => ⟨0x80, d⟩
  | .wrResult d => ⟨0x81, d⟩
  | .wrHum d => ⟨0x82, d⟩
  | .wrTemp d => ⟨0x83, d⟩
  | .wrCfg d => ⟨0x84, d⟩
  | .wrCmd d => ⟨0x85, d⟩
  | .wrLastpoll d => ⟨0x86, d⟩
  | .wrFrameHi d => ⟨0x87, d⟩
  | .wrFrameCk d => ⟨0x88, d⟩
  | .wrTimer d => ⟨0x89, d⟩
  | .wrPhase d => ⟨0x8A, d⟩
  | .wrRsvdB d => ⟨0x8B, d⟩
  | .wrRsvdC d => ⟨0x8C, d⟩
  | .wrRsvdD d => ⟨0x8D, d⟩
  | .wrRsvdE d => ⟨0x8E, d⟩
  | .wrRsvdF d => ⟨0x8F, d⟩
  | .rsv6 w rest d => ⟨BitVec.ofBool w ++ 0b1#1 ++ rest, d⟩
  | .rsv5 w rest d => ⟨BitVec.ofBool w ++ 0b01#2 ++ rest, d⟩
  | .rsv4 w rest d => ⟨BitVec.ofBool w ++ 0b001#3 ++ rest, d⟩

/-- A row's mask and match in spec/opcode_table.json. -/
structure RowPattern where
  mask : Byte
  pattern : Byte
deriving DecidableEq, Repr

/-- The pattern holds of a word: the masked bits are the row's (R90). -/
def RowPattern.matches (r : RowPattern) (haw : Haw) : Bool := (haw &&& r.mask) == r.pattern

/-- The opcode-table row of an access (spec/opcode_table.json; R83, R90). -/
def Instr.row : Instr → RowPattern
  | .rdStatus => ⟨0xFF, 0x00⟩
  | .rdResult => ⟨0xFF, 0x01⟩
  | .rdHum => ⟨0xFF, 0x02⟩
  | .rdTemp => ⟨0xFF, 0x03⟩
  | .rdCfg => ⟨0xFF, 0x04⟩
  | .rdCmd => ⟨0xFF, 0x05⟩
  | .rdLastpoll => ⟨0xFF, 0x06⟩
  | .rdFrameHi => ⟨0xFF, 0x07⟩
  | .rdFrameCk => ⟨0xFF, 0x08⟩
  | .rdTimer => ⟨0xFF, 0x09⟩
  | .rdPhase => ⟨0xFF, 0x0A⟩
  | .rdRsvdB => ⟨0xFF, 0x0B⟩
  | .rdRsvdC => ⟨0xFF, 0x0C⟩
  | .rdRsvdD => ⟨0xFF, 0x0D⟩
  | .rdRsvdE => ⟨0xFF, 0x0E⟩
  | .rdRsvdF => ⟨0xFF, 0x0F⟩
  | .wrStatus _ => ⟨0xFF, 0x80⟩
  | .wrResult _ => ⟨0xFF, 0x81⟩
  | .wrHum _ => ⟨0xFF, 0x82⟩
  | .wrTemp _ => ⟨0xFF, 0x83⟩
  | .wrCfg _ => ⟨0xFF, 0x84⟩
  | .wrCmd _ => ⟨0xFF, 0x85⟩
  | .wrLastpoll _ => ⟨0xFF, 0x86⟩
  | .wrFrameHi _ => ⟨0xFF, 0x87⟩
  | .wrFrameCk _ => ⟨0xFF, 0x88⟩
  | .wrTimer _ => ⟨0xFF, 0x89⟩
  | .wrPhase _ => ⟨0xFF, 0x8A⟩
  | .wrRsvdB _ => ⟨0xFF, 0x8B⟩
  | .wrRsvdC _ => ⟨0xFF, 0x8C⟩
  | .wrRsvdD _ => ⟨0xFF, 0x8D⟩
  | .wrRsvdE _ => ⟨0xFF, 0x8E⟩
  | .wrRsvdF _ => ⟨0xFF, 0x8F⟩
  | .rsv6 _ _ _ => ⟨0x40, 0x40⟩
  | .rsv5 _ _ _ => ⟨0x60, 0x20⟩
  | .rsv4 _ _ _ => ⟨0x70, 0x10⟩

/-- One access per row of the table, in the table's order, to range over the rows. -/
def tableRows : List RowPattern :=
  [Instr.row .rdStatus, Instr.row .rdResult, Instr.row .rdHum, Instr.row .rdTemp, Instr.row .rdCfg, Instr.row .rdCmd,
   Instr.row .rdLastpoll, Instr.row .rdFrameHi, Instr.row .rdFrameCk, Instr.row .rdTimer, Instr.row .rdPhase] ++
  [Instr.row .rdRsvdB, Instr.row .rdRsvdC, Instr.row .rdRsvdD, Instr.row .rdRsvdE, Instr.row .rdRsvdF] ++
  [Instr.row (.wrStatus 0), Instr.row (.wrResult 0), Instr.row (.wrHum 0), Instr.row (.wrTemp 0), Instr.row (.wrCfg 0),
   Instr.row (.wrCmd 0), Instr.row (.wrLastpoll 0), Instr.row (.wrFrameHi 0), Instr.row (.wrFrameCk 0),
   Instr.row (.wrTimer 0), Instr.row (.wrPhase 0)] ++
  [Instr.row (.wrRsvdB 0), Instr.row (.wrRsvdC 0), Instr.row (.wrRsvdD 0), Instr.row (.wrRsvdE 0), Instr.row (.wrRsvdF 0)] ++
  [Instr.row (.rsv6 false 0 0), Instr.row (.rsv5 false 0 0), Instr.row (.rsv4 false 0 0)]

/-- The access whose bits are `w`, numbered as the table numbers them: haw in bits 7:0, wdata in bits 39:8
(log entry 11). Bits at and above `nbits` are zero. -/
def accessOfBits (nbits w : Nat) : AccessWord :=
  let bits := w % 2 ^ nbits
  ⟨BitVec.ofNat 8 bits, BitVec.ofNat 32 (bits / 2 ^ 8)⟩

/-- The decoder's reading of a word numbered as the opcode table numbers it. -/
def decodeTableWord (nbits w : Nat) : Option Instr := some (decode (accessOfBits nbits w))

/-! Host syntax (R86) and the pseudo-instructions that are one access (R87). WAIT_DONE is host control flow around
RD STATUS; its loop test is `waitDoneRepeats`. -/

/-- A line of the host syntax of R86, with the registers by index, and the one-access pseudo-instructions of R87. -/
inductive HostLine where
  | rd (reg : BitVec 4)
  | wr (reg : BitVec 4) (imm : Word)
  | haw (word : Haw) (imm : Word)
  | poll
  | setCfg (signSrc sepErrStop : Bool)
  | getHum
  | getTemp
deriving DecidableEq, Repr

/-- The register names of R83, by index; the reserved slots have none. -/
def regName (reg : BitVec 4) : Option String :=
  ["STATUS", "RESULT", "HUM", "TEMP", "CFG", "CMD", "LAST_POLL", "FRAME_HI", "FRAME_CK", "TIMER", "PHASE"][reg.toNat]?

/-- The access of one line (R86, R87). -/
def assemble : HostLine → AccessWord
  | .rd reg => ⟨0b0000#4 ++ reg, 0⟩
  | .wr reg imm => ⟨0b1000#4 ++ reg, imm⟩
  | .haw word imm => ⟨word, imm⟩
  | .poll => ⟨0x85, 1⟩
  | .setCfg signSrc sepErrStop => ⟨0x84, ((BitVec.ofBool sepErrStop).setWidth 32 <<< 1) ||| (BitVec.ofBool signSrc).setWidth 32⟩
  | .getHum => ⟨0x02, 0⟩
  | .getTemp => ⟨0x03, 0⟩

/-- WAIT_DONE goes round again exactly when the STATUS it read shows BUSY (R87: "if s[0] = 1 goto 1"). -/
def waitDoneRepeats (status : Word) : Bool := status.getLsbD 0

end Sys2Proof
end

