-- ==== Sys2Proof/Config.lean ====
section
/-! DEFINITION. What is no state of the block (00_scope.md R6): the parameters of R7, the events of the block's environment, and the one free value, the event that the environment supplies when none is listed. -/

namespace Sys2Proof

/-- The timing and protocol constants of 00_scope.md R7, each a named parameter (92_eei_decisions.md D30).
Their default values are in Machine/Params.lean. N_BYTES = 5 is the length of the frame's type. -/
structure Params where
  reqLowUs : Nat
  timeoutUs : Nat
  t1Min : Nat
  t1Max : Nat
  t2Min : Nat
  t2Max : Nat
  t3Min : Nat
  t3Max : Nat
  sepMin : Nat
  sepMax : Nat
  zeroLo : Nat
  zeroHi : Nat
  oneLo : Nat
  oneHi : Nat
  pollIntervalS : Nat
  nBits : Nat
  checksumMask : Nat
  signMask : Byte
  magMask : Byte
deriving DecidableEq, Repr

/-- One event of the total order of 20_memory.md R69: a decoder tick with its sample of line_in (00_scope.md R5),
a host access with the wall-clock value supplied beside it (R5, 30_encoding.md R84), and the two edges of rst
(70_reset_and_hazards.md R260). -/
inductive Event where
  | tick (lineIn : Level)
  | access (haw : Haw) (wdata : Word) (now : Seconds)
  | rstAssert
  | rstRelease
deriving DecidableEq, Repr, Inhabited

/-- FREE VALUE: the event that comes next when none is listed in State. The sample of a tick and the wall-clock
value are unconstrained draws (00_scope.md R5) and the order of events is any total order (20_memory.md R69), so
nothing in Lean knows which event this is. Log entry 1. -/
opaque Config.freeEvent : Nat → Event

end Sys2Proof
end

