-- ==== Sys2Proof/Machine/Params.lean ====
section
/-! DEFINITION. The values of the parameters, the source's values that 00_scope.md R7 makes the defaults. -/

namespace Sys2Proof.Machine

/-- The default of every parameter of R7. Log entry 6. -/
def params : Params where
  reqLowUs := 1000
  timeoutUs := 300
  t1Min := 10
  t1Max := 200
  t2Min := 70
  t2Max := 110
  t3Min := 70
  t3Max := 100
  sepMin := 40
  sepMax := 70
  zeroLo := 15
  zeroHi := 35
  oneLo := 65
  oneHi := 80
  pollIntervalS := 2
  nBits := 40
  checksumMask := 0xFF
  signMask := 0x80
  magMask := 0x7F

end Sys2Proof.Machine
end

