-- ==== Sys2Proof/Machine/State.lean ====
section
/-! DEFINITION. The state: the block's record of 10_state.md R20, the ports of R54 that last from one event to the next, and the model's own list of coming events. Reset is 70_reset_and_hazards.md R260. -/

namespace Sys2Proof.Machine

/-- The resting phases of the protocol state machine (10_state.md R21). Code 7 is never produced and has no
constructor (93_implementation_defined.md I11; log entry 8). -/
inductive Phase where
  | idle
  | reqLow
  | awaitAck
  | ackLow
  | ackHigh
  | bitSep
  | bitHigh
deriving DecidableEq, Repr

/-- The seven outcome kinds (10_state.md R45). Code 7 is never produced and has no constructor
(93_implementation_defined.md I10; log entry 8). -/
inductive ResultCode where
  | success
  | pollingIntervalError
  | responseTimeout
  | responseError
  | readBitTimeout
  | readBitError
  | checksumError
deriving DecidableEq, Repr

/-- The RawFrame: humidity high, humidity low, temperature high, temperature low, checksum (10_state.md R26). -/
abbrev Frame := Vector Byte 5

/-- The complete state of the block (10_state.md R20), element by element under the spec's names. -/
structure Block where
  /-- R21 -/
  phase : Phase
  /-- R22 -/
  holdCnt : HoldCount
  /-- R23 -/
  tmrCnt : TmrCount
  /-- R24 -/
  tmrRun : Bool
  /-- R25 -/
  bitIdx : BitIdx
  /-- R26 -/
  frame : Frame
  /-- R27 -/
  result : ResultCode
  /-- R28 -/
  polled : Bool
  /-- R29 -/
  hum : Tenths
  /-- R30 -/
  temp : Tenths
  /-- R31 -/
  rdValid : Bool
  /-- R32 -/
  lastPoll : Seconds
  /-- R33 -/
  lastValid : Bool
  /-- R34 -/
  nowLatch : Seconds
  /-- R35 -/
  cfgSignSrc : Bool
  /-- R36 -/
  cfgSepErrStop : Bool
  /-- R37: true is Output -/
  lineOe : Bool
  /-- R38: the level driven while lineOe is Output -/
  lineOut : Level
deriving DecidableEq, Repr

/-- The reset values of R20, applied by 70_reset_and_hazards.md R260. -/
def Block.reset : Block where
  phase := .idle
  holdCnt := 0
  tmrCnt := 0
  tmrRun := false
  bitIdx := 0
  frame := #v[0x00, 0x00, 0x00, 0x00, 0x00]
  result := .success
  polled := false
  hum := 0
  temp := 0
  rdValid := false
  lastPoll := 0
  lastValid := false
  nowLatch := 0
  cfgSignSrc := false
  cfgSepErrStop := false
  lineOe := true
  lineOut := high

/-- The machine's state: the block, the ports that last, and the coming events. -/
structure State where
  /-- The block's own state (R20). -/
  block : Block
  /-- Input port rst (R54): true while reset is asserted (R260). -/
  rst : Bool
  /-- Input port now_s (R54): the wall-clock value supplied with the current host access (log entry 4). -/
  nowS : Seconds
  /-- Output port rdata (R54): the data of the last host read (log entry 3). -/
  rdata : Word
  /-- The MODEL's own field: the coming events that are known, the next one first (log entry 1). -/
  inbox : List Event
  /-- The MODEL's own field: how many events have been drawn from Config.freeEvent (log entry 1). -/
  drawn : Nat
deriving DecidableEq, Repr

/-- The machine right after reset: the block at the values of R260 with rst released; the ports now_s and rdata at 0
and no event listed (DESIGN CHOICE, log entries 1, 3, 4, 5). -/
def State.reset : State where
  block := Block.reset
  rst := false
  nowS := 0
  rdata := 0
  inbox := []
  drawn := 0

/-- The reasons to stop with a fault: none. "No behaviour of this block faults or hangs"
(93_implementation_defined.md; 60_exceptions.md R230, R247; 30_encoding.md R85). -/
inductive Fault
deriving DecidableEq, Repr

/-- The reasons to refuse. -/
inductive Refusal where
  /-- Raised by exec's arm of an access that has no meaning yet. No arm does. Safe. -/
  | notModelled (mnemonic : String)
  /-- Raised by a BIT_HIGH tick that would append a bit with bit_idx of 40 or more: the frame has no such byte.
  93_implementation_defined.md I17 says to treat these unreachable values as `refuse`, and 10_state.md R56 item 4
  excludes them. Safe (log entry 7). -/
  | bitIdxOutOfFrame
deriving DecidableEq, Repr

end Sys2Proof.Machine
end

