-- ==== Sys2Proof/Machine/Flags.lean ====
section
/-! DEFINITION. The conditions of the rules: busy, the rate gate's predicate, the timeout and the windows, and the pulse classifier. The block has no condition codes (10_state.md R55); its STATUS flags are fields of Block and `Block.busy`. -/

namespace Sys2Proof.Machine

/-- busy = (phase != IDLE) (10_state.md R39). -/
def Block.busy (b : Block) : Bool := b.phase != .idle

/-- GateAllows (40_poll_gate.md R102): the subtraction is on unbounded integers. -/
def Block.gateAllows (p : Params) (b : Block) (now : Seconds) : Bool :=
  !b.lastValid || decide ((now.toNat : Int) - (b.lastPoll.toNat : Int) ≥ (p.pollIntervalS : Int))

/-- "timeout when elapsed > 300" (00_scope.md R7, R13). -/
def timedOut (p : Params) (t : Nat) : Bool := decide (p.timeoutUs < t)

/-- A closed window [lo, hi] (00_scope.md R13), as a test that a duration passes or not. -/
def closedWindow (lo hi t : Nat) : Option Unit := if lo ≤ t ∧ t ≤ hi then some () else none

/-- Classify, the pulse-width decoder (42_bit_decode.md R154): both intervals are open. -/
def classify (p : Params) (t : Nat) : Option Bool :=
  if p.zeroLo < t ∧ t < p.zeroHi then some false
  else if p.oneLo < t ∧ t < p.oneHi then some true
  else none

end Sys2Proof.Machine
end

