-- ==== Sys2Proof/Machine/Operands.lean ====
section
/-! DEFINITION. The operands of the host accesses (30_encoding.md R84): the fields of wdata, and rdata assembled by the register layouts of 10_state.md R42 to R52. -/

namespace Sys2Proof.Machine

/-- The 3-bit code of a phase (10_state.md R21). -/
def Phase.code : Phase → BitVec 3
  | .idle => 0
  | .reqLow => 1
  | .awaitAck => 2
  | .ackLow => 3
  | .ackHigh => 4
  | .bitSep => 5
  | .bitHigh => 6

/-- The 3-bit code of an outcome (10_state.md R45). -/
def ResultCode.code : ResultCode → BitVec 3
  | .success => 0
  | .pollingIntervalError => 1
  | .responseTimeout => 2
  | .responseError => 3
  | .readBitTimeout => 4
  | .readBitError => 5
  | .checksumError => 6

/-- STATUS (10_state.md R42; 44_register_access.md R190): {LINE_OUT, LINE_OE, POLLED, LAST_VALID, TMR_RUN, RD_VALID, BUSY}. -/
def Block.statusWord (b : Block) : Word :=
  (BitVec.ofBool b.lineOut ++ BitVec.ofBool b.lineOe ++ BitVec.ofBool b.polled ++ BitVec.ofBool b.lastValid ++
    BitVec.ofBool b.tmrRun ++ BitVec.ofBool b.rdValid ++ BitVec.ofBool b.busy).setWidth 32

/-- RESULT (10_state.md R45; R191). -/
def Block.resultWord (b : Block) : Word := b.result.code.setWidth 32

/-- HUM, zero-extended (10_state.md R46; R192). -/
def Block.humWord (b : Block) : Word := b.hum.setWidth 32

/-- TEMP, sign-extended (10_state.md R47; R193). -/
def Block.tempWord (b : Block) : Word := b.temp.signExtend 32

/-- CFG (10_state.md R43; R194): {SEP_ERR_STOP, SIGN_SRC}. -/
def Block.cfgWord (b : Block) : Word :=
  (BitVec.ofBool b.cfgSepErrStop ++ BitVec.ofBool b.cfgSignSrc).setWidth 32

/-- CMD and the reserved slots read 0 (10_state.md R44, R53; R196, R202, R204). -/
def zeroWord : Word := 0

/-- LAST_POLL (10_state.md R48; R197). -/
def Block.lastPollWord (b : Block) : Word := b.lastPoll

/-- FRAME_HI, frame[0] in bits 31:24 (10_state.md R49; R198). -/
def Block.frameHiWord (b : Block) : Word := b.frame[0] ++ b.frame[1] ++ b.frame[2] ++ b.frame[3]

/-- FRAME_CK (10_state.md R50; R199). -/
def Block.frameCkWord (b : Block) : Word := b.frame[4].setWidth 32

/-- TIMER (10_state.md R51; R200). -/
def Block.timerWord (b : Block) : Word := b.tmrCnt.setWidth 32

/-- PHASE (10_state.md R52; R201): HOLD << 16 | BIT_IDX << 8 | phase code. -/
def Block.phaseWord (b : Block) : Word :=
  (b.holdCnt.setWidth 32 <<< 16) ||| (b.bitIdx.setWidth 32 <<< 8) ||| b.phase.code.setWidth 32

/-- SIGN_SRC of a CFG write, wdata[0] (R84, 44_register_access.md R195). -/
def wdataSignSrc (wdata : Word) : Bool := wdata.getLsbD 0

/-- SEP_ERR_STOP of a CFG write, wdata[1] (R84, 44_register_access.md R195). -/
def wdataSepErrStop (wdata : Word) : Bool := wdata.getLsbD 1

/-- POLL of a CMD write, wdata[0] (R84, 40_poll_gate.md R100). -/
def wdataPoll (wdata : Word) : Bool := wdata.getLsbD 0

end Sys2Proof.Machine
end

