-- ==== Sys2Proof/Machine/Ops.lean ====
section
/-! DEFINITION. The shared operations: the microsecond timer's four operations and its advance (10_state.md R23, R24), EndTransaction (60_exceptions.md R232: the block's one "trap entry"; there is no return, R238), the wait primitive (41_handshake.md R124), and the two shapes of a host access. -/

namespace Sys2Proof.Machine

/-- Timer reset(): the count to 0, the running state unchanged (10_state.md R23). -/
def Block.timerReset (b : Block) : Block := { b with tmrCnt := 0 }

/-- Timer start() (10_state.md R24). -/
def Block.timerStart (b : Block) : Block := { b with tmrRun := true }

/-- Timer stop(): a stopped timer keeps its count (10_state.md R23, R24). -/
def Block.timerStop (b : Block) : Block := { b with tmrRun := false }

/-- elapsedMicros() (10_state.md R23). -/
def Block.elapsed (b : Block) : Nat := b.tmrCnt.toNat

/-- The timer's advance at the start of a tick, modulo 2^16 (10_state.md R23; 41_handshake.md R120). -/
def Block.timerAdvance (b : Block) : Block :=
  { b with tmrCnt := if b.tmrRun then b.tmrCnt + 1 else b.tmrCnt }

/-- EndTransaction(code, stop_timer) (60_exceptions.md R232). -/
def Block.endTransaction (code : ResultCode) (stopTimer : Bool) (b : Block) : Block :=
  { b with
    tmrRun := if stopTimer then b.timerStop.tmrRun else b.tmrRun
    lineOe := true
    lineOut := high
    result := code
    polled := true
    lastPoll := b.nowLatch
    lastValid := true
    phase := .idle }

/-- The end of every onPass but the 40th bit's: reset the timer and enter the next phase (41_handshake.md R124). -/
def Block.enterTimed (next : Phase) (b : Block) : Block := { b.timerReset with phase := next }

/-- Wait (41_handshake.md R124) on the sample `s`, waiting while the line is at `level`. The block's timer has
advanced already, so its count is the rule's tc. `accept` gives what a measured duration stands for, or none where
it lies outside the window. The sample is tested first and the timeout only while it is still at the level
(60_exceptions.md R235). -/
def Block.wait {α : Type} (p : Params) (s level : Level) (accept : Nat → Option α)
    (tmoCode errCode : ResultCode) (errStop : Bool) (onPass : α → Block → Except Refusal Block) (b : Block) :
    Except Refusal Block :=
  if s = level then
    if timedOut p b.elapsed then .ok (b.endTransaction tmoCode true) else .ok b
  else
    match accept b.elapsed with
    | some a => onPass a b
    | none => .ok (b.endTransaction errCode errStop)

/-- A host read: rdata gets the value, and no state changes (20_memory.md R67; 30_encoding.md R81). -/
def hostRead (value : Word) (s : State) : Host.Outcome State Fault Refusal := .next { s with rdata := value }

/-- A host write with an effect on the block. While rst is asserted "A host write is ignored"
(70_reset_and_hazards.md R260). -/
def hostWrite (effect : Block → Block) (s : State) : Host.Outcome State Fault Refusal :=
  if s.rst then .next s else .next { s with block := effect s.block }

/-- A host write with no effect (44_register_access.md R203). -/
def ignoredWrite (s : State) : Host.Outcome State Fault Refusal := .next s

/-- A reserved access (30_encoding.md R82; 44_register_access.md R204): a read gives 0, a write is ignored. -/
def reservedAccess (w : Bool) (s : State) : Host.Outcome State Fault Refusal :=
  if w then ignoredWrite s else hostRead zeroWord s

end Sys2Proof.Machine
end

