-- ==== Sys2Proof/Machine/Poll.lean ====
section
/-! DEFINITION. The POLL command and the poll rate limiter (40_poll_gate.md R100 to R105). -/

namespace Sys2Proof.Machine

/-- Rejection (R103): the code and its flag, nothing else. -/
def Block.rejectPoll (b : Block) : Block := { b with result := .pollingIntervalError, polled := true }

/-- Acceptance (R104): latch now_s, clear the frame and the counters, drive the line Low. -/
def Block.acceptPoll (now : Seconds) (b : Block) : Block :=
  { b with
    nowLatch := now
    frame := #v[0x00, 0x00, 0x00, 0x00, 0x00]
    bitIdx := 0
    holdCnt := 0
    lineOe := true
    lineOut := low
    phase := .reqLow }

/-- POLL with this wall-clock value (R100): the busy test first (R101), the rate gate second (60_exceptions.md R236). -/
def Block.poll (p : Params) (now : Seconds) (b : Block) : Block :=
  if b.busy then b else if b.gateAllows p now then b.acceptPoll now else b.rejectPoll

/-- WR_CMD (R100): wdata[0] is POLL, the other bits are ignored. -/
def execWrCmd (wdata : Word) (s : State) : Host.Outcome State Fault Refusal :=
  hostWrite (fun b => if wdataPoll wdata then b.poll params s.nowS else b) s

end Sys2Proof.Machine
end

