-- ==== Sys2Proof/Machine/Reads.lean ====
section
/-! DEFINITION. The sixteen register reads (44_register_access.md R190 to R202). -/

namespace Sys2Proof.Machine

/-- RD_STATUS (R190). -/
def execRdStatus (s : State) : Host.Outcome State Fault Refusal := hostRead s.block.statusWord s

/-- RD_RESULT (R191). -/
def execRdResult (s : State) : Host.Outcome State Fault Refusal := hostRead s.block.resultWord s

/-- RD_HUM (R192). -/
def execRdHum (s : State) : Host.Outcome State Fault Refusal := hostRead s.block.humWord s

/-- RD_TEMP (R193). -/
def execRdTemp (s : State) : Host.Outcome State Fault Refusal := hostRead s.block.tempWord s

/-- RD_CFG (R194). -/
def execRdCfg (s : State) : Host.Outcome State Fault Refusal := hostRead s.block.cfgWord s

/-- RD_CMD (R196). -/
def execRdCmd (s : State) : Host.Outcome State Fault Refusal := hostRead zeroWord s

/-- RD_LASTPOLL (R197). -/
def execRdLastpoll (s : State) : Host.Outcome State Fault Refusal := hostRead s.block.lastPollWord s

/-- RD_FRAME_HI (R198). -/
def execRdFrameHi (s : State) : Host.Outcome State Fault Refusal := hostRead s.block.frameHiWord s

/-- RD_FRAME_CK (R199). -/
def execRdFrameCk (s : State) : Host.Outcome State Fault Refusal := hostRead s.block.frameCkWord s

/-- RD_TIMER (R200). -/
def execRdTimer (s : State) : Host.Outcome State Fault Refusal := hostRead s.block.timerWord s

/-- RD_PHASE (R201). -/
def execRdPhase (s : State) : Host.Outcome State Fault Refusal := hostRead s.block.phaseWord s

/-- RD_RSVD_B (R202). -/
def execRdRsvdB (s : State) : Host.Outcome State Fault Refusal := hostRead zeroWord s

/-- RD_RSVD_C (R202). -/
def execRdRsvdC (s : State) : Host.Outcome State Fault Refusal := hostRead zeroWord s

/-- RD_RSVD_D (R202). -/
def execRdRsvdD (s : State) : Host.Outcome State Fault Refusal := hostRead zeroWord s

/-- RD_RSVD_E (R202). -/
def execRdRsvdE (s : State) : Host.Outcome State Fault Refusal := hostRead zeroWord s

/-- RD_RSVD_F (R202). -/
def execRdRsvdF (s : State) : Host.Outcome State Fault Refusal := hostRead zeroWord s

end Sys2Proof.Machine
end

