-- ==== Sys2Proof/Machine/Reserved.lean ====
section
/-! DEFINITION. The reserved accesses (30_encoding.md R82; 44_register_access.md R204). -/

namespace Sys2Proof.Machine

/-- RSV_6 (R204), whatever its free bits and wdata are. -/
def execRsv6 (w : Bool) (_rest : BitVec 6) (_wdata : Word) (s : State) : Host.Outcome State Fault Refusal :=
  reservedAccess w s

/-- RSV_5 (R204), whatever its free bits and wdata are. -/
def execRsv5 (w : Bool) (_rest : BitVec 5) (_wdata : Word) (s : State) : Host.Outcome State Fault Refusal :=
  reservedAccess w s

/-- RSV_4 (R204), whatever its free bits and wdata are. -/
def execRsv4 (w : Bool) (_rest : BitVec 4) (_wdata : Word) (s : State) : Host.Outcome State Fault Refusal :=
  reservedAccess w s

end Sys2Proof.Machine
end

