-- ==== Sys2Proof/Machine/Writes.lean ====
section
/-! DEFINITION. The register writes but WR_CMD: WR_CFG and the fourteen ignored writes (44_register_access.md R195, R203). -/

namespace Sys2Proof.Machine

/-- The effect of a CFG write (R195): taken only in IDLE. -/
def Block.writeCfg (wdata : Word) (b : Block) : Block :=
  if b.phase = .idle then { b with cfgSignSrc := wdataSignSrc wdata, cfgSepErrStop := wdataSepErrStop wdata } else b

/-- WR_CFG (R195). -/
def execWrCfg (wdata : Word) (s : State) : Host.Outcome State Fault Refusal := hostWrite (fun b => b.writeCfg wdata) s

/-- WR_STATUS (R203): wdata is ignored. -/
def execWrStatus (_wdata : Word) (s : State) : Host.Outcome State Fault Refusal := ignoredWrite s

/-- WR_RESULT (R203): wdata is ignored. -/
def execWrResult (_wdata : Word) (s : State) : Host.Outcome State Fault Refusal := ignoredWrite s

/-- WR_HUM (R203): wdata is ignored. -/
def execWrHum (_wdata : Word) (s : State) : Host.Outcome State Fault Refusal := ignoredWrite s

/-- WR_TEMP (R203): wdata is ignored. -/
def execWrTemp (_wdata : Word) (s : State) : Host.Outcome State Fault Refusal := ignoredWrite s

/-- WR_LASTPOLL (R203): wdata is ignored. -/
def execWrLastpoll (_wdata : Word) (s : State) : Host.Outcome State Fault Refusal := ignoredWrite s

/-- WR_FRAME_HI (R203): wdata is ignored. -/
def execWrFrameHi (_wdata : Word) (s : State) : Host.Outcome State Fault Refusal := ignoredWrite s

/-- WR_FRAME_CK (R203): wdata is ignored. -/
def execWrFrameCk (_wdata : Word) (s : State) : Host.Outcome State Fault Refusal := ignoredWrite s

/-- WR_TIMER (R203): wdata is ignored. -/
def execWrTimer (_wdata : Word) (s : State) : Host.Outcome State Fault Refusal := ignoredWrite s

/-- WR_PHASE (R203): wdata is ignored. -/
def execWrPhase (_wdata : Word) (s : State) : Host.Outcome State Fault Refusal := ignoredWrite s

/-- WR_RSVD_B (R203): wdata is ignored. -/
def execWrRsvdB (_wdata : Word) (s : State) : Host.Outcome State Fault Refusal := ignoredWrite s

/-- WR_RSVD_C (R203): wdata is ignored. -/
def execWrRsvdC (_wdata : Word) (s : State) : Host.Outcome State Fault Refusal := ignoredWrite s

/-- WR_RSVD_D (R203): wdata is ignored. -/
def execWrRsvdD (_wdata : Word) (s : State) : Host.Outcome State Fault Refusal := ignoredWrite s

/-- WR_RSVD_E (R203): wdata is ignored. -/
def execWrRsvdE (_wdata : Word) (s : State) : Host.Outcome State Fault Refusal := ignoredWrite s

/-- WR_RSVD_F (R203): wdata is ignored. -/
def execWrRsvdF (_wdata : Word) (s : State) : Host.Outcome State Fault Refusal := ignoredWrite s

end Sys2Proof.Machine
end

