-- ==== Sys2Proof/Machine/Dispatch.lean ====
section
/-! DEFINITION. The meaning of every host access, one arm per row of the opcode table. -/

namespace Sys2Proof.Machine

def exec (i : Instr) (s : State) : Host.Outcome State Fault Refusal :=
  match i with
  | .rdStatus => Sys2Proof.Machine.execRdStatus s
  | .rdResult => Sys2Proof.Machine.execRdResult s
  | .rdHum => Sys2Proof.Machine.execRdHum s
  | .rdTemp => Sys2Proof.Machine.execRdTemp s
  | .rdCfg => Sys2Proof.Machine.execRdCfg s
  | .rdCmd => Sys2Proof.Machine.execRdCmd s
  | .rdLastpoll => Sys2Proof.Machine.execRdLastpoll s
  | .rdFrameHi => Sys2Proof.Machine.execRdFrameHi s
  | .rdFrameCk => Sys2Proof.Machine.execRdFrameCk s
  | .rdTimer => Sys2Proof.Machine.execRdTimer s
  | .rdPhase => Sys2Proof.Machine.execRdPhase s
  | .rdRsvdB => Sys2Proof.Machine.execRdRsvdB s
  | .rdRsvdC => Sys2Proof.Machine.execRdRsvdC s
  | .rdRsvdD => Sys2Proof.Machine.execRdRsvdD s
  | .rdRsvdE => Sys2Proof.Machine.execRdRsvdE s
  | .rdRsvdF => Sys2Proof.Machine.execRdRsvdF s
  | .wrStatus wdata => Sys2Proof.Machine.execWrStatus wdata s
  | .wrResult wdata => Sys2Proof.Machine.execWrResult wdata s
  | .wrHum wdata => Sys2Proof.Machine.execWrHum wdata s
  | .wrTemp wdata => Sys2Proof.Machine.execWrTemp wdata s
  | .wrCfg wdata => Sys2Proof.Machine.execWrCfg wdata s
  | .wrCmd wdata => Sys2Proof.Machine.execWrCmd wdata s
  | .wrLastpoll wdata => Sys2Proof.Machine.execWrLastpoll wdata s
  | .wrFrameHi wdata => Sys2Proof.Machine.execWrFrameHi wdata s
  | .wrFrameCk wdata => Sys2Proof.Machine.execWrFrameCk wdata s
  | .wrTimer wdata => Sys2Proof.Machine.execWrTimer wdata s
  | .wrPhase wdata => Sys2Proof.Machine.execWrPhase wdata s
  | .wrRsvdB wdata => Sys2Proof.Machine.execWrRsvdB wdata s
  | .wrRsvdC wdata => Sys2Proof.Machine.execWrRsvdC wdata s
  | .wrRsvdD wdata => Sys2Proof.Machine.execWrRsvdD wdata s
  | .wrRsvdE wdata => Sys2Proof.Machine.execWrRsvdE wdata s
  | .wrRsvdF wdata => Sys2Proof.Machine.execWrRsvdF wdata s
  | .rsv6 w rest wdata => Sys2Proof.Machine.execRsv6 w rest wdata s
  | .rsv5 w rest wdata => Sys2Proof.Machine.execRsv5 w rest wdata s
  | .rsv4 w rest wdata => Sys2Proof.Machine.execRsv4 w rest wdata s

end Sys2Proof.Machine
end

