-- ==== Sys2Proof/Machine/Finalize.lean ====
section
/-! DEFINITION. Finalize, the checksum validator and the value converter (43_finalize_checksum_convert.md R170 to R177). -/

namespace Sys2Proof.Machine

/-- Checksum (R171): the sum on unsigned integers, masked; the checksum byte takes no part. -/
def checksum (p : Params) (f : Frame) : Byte :=
  BitVec.ofNat 8 ((f[0].toNat + f[1].toNat + f[2].toNat + f[3].toNat) &&& p.checksumMask)

/-- The humidity {f[0], f[1]} (R173). -/
def humidity (f : Frame) : Tenths := f[0] ++ f[1]

/-- The temperature magnitude ((f[2] & 0x7F) << 8) | f[3] (R174). -/
def tempMagnitude (p : Params) (f : Frame) : Tenths := (f[2] &&& p.magMask) ++ f[3]

/-- The sign: SIGN_MASK on frame[0] with cfg_sign_src = 0, on frame[2] with 1 (R175). -/
def tempNegative (p : Params) (signSrc : Bool) (f : Frame) : Bool :=
  ((if signSrc then f[2] else f[0]) &&& p.signMask) != 0

/-- The temperature in 16-bit two's complement (R176). -/
def temperature (p : Params) (signSrc : Bool) (f : Frame) : Tenths :=
  if tempNegative p signSrc f then 0 - tempMagnitude p f else tempMagnitude p f

/-- Storing the reading (R177). -/
def Block.storeReading (p : Params) (b : Block) : Block :=
  { b with
    hum := humidity b.frame
    temp := temperature p b.cfgSignSrc b.frame
    rdValid := true }

/-- Finalize (R170), on the block whose frame holds all 40 bits. -/
def Block.finalize (p : Params) (b : Block) : Block :=
  if checksum p b.frame = b.frame[4] then (b.storeReading p).endTransaction .success true
  else b.endTransaction .checksumError true

end Sys2Proof.Machine
end

