-- ==== Sys2Proof/Machine/BitLoop.lean ====
section
/-! DEFINITION. The bit decode loop and the frame assembler (42_bit_decode.md R150 to R157). Each tick action takes the block after the timer's advance of 41_handshake.md R120. -/

namespace Sys2Proof.Machine

/-- The byte with one more bit shifted in: ((byte << 1) | b) & 0xFF (R153). -/
def shiftIn (byte : Byte) (bit : Bool) : Byte := (byte <<< 1) ||| (BitVec.ofBool bit).setWidth 8

/-- Append (R153) of bit number `k`: it changes byte k div 8 and no other. The frame has no byte for k of 40 or more:
refused by name (93_implementation_defined.md I17, log entry 7). -/
def appendBit (k : BitIdx) (bit : Bool) (f : Frame) : Except Refusal Frame :=
  if h : k.toNat / 8 < 5 then .ok (f.set (k.toNat / 8) (shiftIn f[k.toNat / 8] bit))
  else .error .bitIdxOutOfFrame

/-- BIT_SEP tick (R150); the window failure stops the timer as cfg_sep_err_stop says (R151). -/
def Block.bitSepTick (p : Params) (s : Level) (b : Block) : Except Refusal Block :=
  b.wait p s low (closedWindow p.sepMin p.sepMax) .readBitTimeout .readBitError b.cfgSepErrStop
    (fun _ b => .ok (b.enterTimed .bitHigh))

/-- What BIT_HIGH does with a decoded bit (R152): append it, count it, and go on to the next separator or, at the
N_BITS-th, to Finalize (R155), which does not reset the timer. -/
def Block.takeBit (p : Params) (bit : Bool) (b : Block) : Except Refusal Block :=
  match appendBit b.bitIdx bit b.frame with
  | .error r => .error r
  | .ok f =>
    let taken := { b with frame := f, bitIdx := b.bitIdx + 1 }
    if taken.bitIdx.toNat = p.nBits then .ok (taken.finalize p) else .ok (taken.enterTimed .bitSep)

/-- BIT_HIGH tick (R152). -/
def Block.bitHighTick (p : Params) (s : Level) (b : Block) : Except Refusal Block :=
  b.wait p s high (classify p) .readBitTimeout .readBitError true (fun bit b => b.takeBit p bit)

end Sys2Proof.Machine
end

