-- ==== Sys2Proof/Machine/Handshake.lean ====
section
/-! DEFINITION. The tick's action in IDLE, REQ_LOW and the three handshake phases (41_handshake.md R121 to R127). Each takes the block after the timer's advance of R120. -/

namespace Sys2Proof.Machine

/-- ReleaseAndArm (R123): release the line, reset and start the timer, await the sensor. -/
def Block.releaseAndArm (b : Block) : Block :=
  { b.timerReset.timerStart with
    lineOut := high
    lineOe := false
    phase := .awaitAck }

/-- IDLE tick (R121): nothing beyond the timer's advance. -/
def Block.idleTick (b : Block) : Block := b

/-- REQ_LOW tick (R122). -/
def Block.reqLowTick (p : Params) (b : Block) : Block :=
  let held := { b with holdCnt := b.holdCnt + 1 }
  if held.holdCnt.toNat = p.reqLowUs then held.releaseAndArm else held

/-- AWAIT_ACK tick (R125). -/
def Block.awaitAckTick (p : Params) (s : Level) (b : Block) : Except Refusal Block :=
  b.wait p s high (closedWindow p.t1Min p.t1Max) .responseTimeout .responseError true
    (fun _ b => .ok (b.enterTimed .ackLow))

/-- ACK_LOW tick (R126). -/
def Block.ackLowTick (p : Params) (s : Level) (b : Block) : Except Refusal Block :=
  b.wait p s low (closedWindow p.t2Min p.t2Max) .responseTimeout .responseError true
    (fun _ b => .ok (b.enterTimed .ackHigh))

/-- ACK_HIGH tick (R127). -/
def Block.ackHighTick (p : Params) (s : Level) (b : Block) : Except Refusal Block :=
  b.wait p s high (closedWindow p.t3Min p.t3Max) .responseTimeout .responseError true
    (fun _ b => .ok (b.enterTimed .bitSep))

end Sys2Proof.Machine
end

