-- ==== Sys2Proof/Machine/Tick.lean ====
section
/-! DEFINITION. The decoder tick (41_handshake.md R120). -/

namespace Sys2Proof.Machine

/-- Tick(line_in) (R120): the timer advances, then the phase's action runs on this tick's sample. -/
def Block.tick (p : Params) (s : Level) (b : Block) : Except Refusal Block :=
  let b := b.timerAdvance
  match b.phase with
  | .idle => .ok b.idleTick
  | .reqLow => .ok (b.reqLowTick p)
  | .awaitAck => b.awaitAckTick p s
  | .ackLow => b.ackLowTick p s
  | .ackHigh => b.ackHighTick p s
  | .bitSep => b.bitSepTick p s
  | .bitHigh => b.bitHighTick p s

/-- A tick event: "While rst is asserted, the decoder takes no tick step" (70_reset_and_hazards.md R260). -/
def tickEvent (lineIn : Level) (s : State) : Host.Outcome State Fault Refusal :=
  if s.rst then .next s
  else
    match s.block.tick params lineIn with
    | .ok b => .next { s with block := b }
    | .error r => .refused r

end Sys2Proof.Machine
end

