-- ==== Sys2Proof/Machine/Events.lean ====
section
/-! DEFINITION. The total order of events (20_memory.md R69): which event comes next, and what each does (reset: 70_reset_and_hazards.md R260, R261). -/

namespace Sys2Proof.Machine

/-- The next event: the first one listed, or a free value where none is listed (log entry 1). -/
def nextEvent (s : State) : Event :=
  match s.inbox with
  | e :: _ => e
  | [] => Config.freeEvent s.drawn

/-- The state with the next event taken. -/
def takeEvent (s : State) : State :=
  match s.inbox with
  | _ :: rest => { s with inbox := rest }
  | [] => { s with drawn := s.drawn + 1 }

/-- rst is asserted: every element of the block to its reset value, in one event and from any state (R260, R261). -/
def assertRst (s : State) : State := { s with block := Block.reset, rst := true }

/-- rst is released: the decoder and the writes act again (R260). -/
def releaseRst (s : State) : State := { s with rst := false }

/-- The wall-clock value that accompanies a host access is on the port now_s (00_scope.md R5, R11). -/
def presentNow (now : Seconds) (s : State) : State := { s with nowS := now }

/-- What an event does. A host access runs the access that its word decodes to. -/
def deliver (e : Event) (s : State) : Host.Outcome State Fault Refusal :=
  match e with
  | .tick lineIn => tickEvent lineIn s
  | .access haw wdata now => exec (decode ⟨haw, wdata⟩) (presentNow now s)
  | .rstAssert => .next (assertRst s)
  | .rstRelease => .next (releaseRst s)

/-- The event by which the host presents this word, the wall clock standing at `now`. -/
def accessEvent (a : AccessWord) (now : Seconds) : Event := .access a.haw a.wdata now

end Sys2Proof.Machine
end

