-- ==== Sys2Proof/Machine/Step.lean ====
section
/-! DEFINITION. One step: the next event of the total order of 20_memory.md R69. -/

namespace Sys2Proof.Machine

/-- One step: the next event acts on the state it was taken from. -/
def step (s : State) : Host.Outcome State Fault Refusal := deliver (nextEvent s) (takeEvent s)

/-- The state in which the very next event is the host access whose bits are `w` (log entries 2 and 11); the wall
clock stays where it stood. -/
def State.withFetchWord (s : State) (nbits w : Nat) : State :=
  { s with inbox := accessEvent (accessOfBits nbits w) s.nowS :: s.inbox }

end Sys2Proof.Machine
end

