-- ==== Sys2Proof/Safety.lean ====
section
/-! DEFINITION. The terms claims use: the invariants of 10_state.md R56, a run of ticks, and the outcome of a transaction as a function of the line (43_finalize_checksum_convert.md R179). None of it is used by the machine. -/

namespace Sys2Proof.Machine

/-- The phases that wait on the line (10_state.md R56 item 3). -/
def Phase.timed (p : Phase) : Bool :=
  p == .awaitAck || p == .ackLow || p == .ackHigh || p == .bitSep || p == .bitHigh

/-- The phases between an acceptance and the first bit cell. -/
def Phase.beforeBits (p : Phase) : Bool := p == .reqLow || p == .awaitAck || p == .ackLow || p == .ackHigh

/-- The invariants of every reachable state of the block, item by item (10_state.md R56), and one more that makes them
inductive: before the first bit cell bit_idx is 0 and the frame is clear (10_state.md R25, R26; 41_handshake.md R127:
"bit_idx is already 0 from acceptance"). -/
structure Block.Inv (b : Block) : Prop where
  /-- item 1 -/
  idle_line : b.phase = .idle → b.lineOe = true ∧ b.lineOut = high
  /-- item 2 -/
  reqLow_line : b.phase = .reqLow → b.lineOe = true ∧ b.lineOut = low ∧ b.holdCnt.toNat < 1000
  /-- item 3 -/
  timed_line : b.phase.timed = true →
    b.lineOe = false ∧ b.lineOut = high ∧ b.tmrRun = true ∧ b.tmrCnt.toNat ≤ 300
  /-- item 4 -/
  bits_left : b.phase = .bitSep ∨ b.phase = .bitHigh → b.bitIdx.toNat ≤ 39
  /-- item 5 -/
  bitIdx_le : b.bitIdx.toNat ≤ 40
  /-- item 6 -/
  code_ne_seven : b.phase.code ≠ 7
  /-- item 7 -/
  unread : b.rdValid = false → b.hum = 0 ∧ b.temp = 0
  /-- item 8 -/
  unrecorded : b.lastValid = false → b.lastPoll = 0
  /-- 41_handshake.md R127, 40_poll_gate.md R104 -/
  fresh : b.phase.beforeBits = true → b.bitIdx = 0 ∧ b.frame = #v[0x00, 0x00, 0x00, 0x00, 0x00]

/-- The block's invariants, and that the block stays at its reset values while rst is asserted
(70_reset_and_hazards.md R260). -/
structure State.Inv (s : State) : Prop where
  block_inv : s.block.Inv
  held_reset : s.rst = true → s.block = Block.reset

/-- A run of ticks on these samples, the first one first. -/
def runTicks : List Level → Block → Except Refusal Block
  | [], b => .ok b
  | s :: rest, b =>
    match b.tick params s with
    | .ok b' => runTicks rest b'
    | .error r => .error r

/-- On these samples the block first comes to IDLE at tick `n`, as `c`: from a block that has accepted a POLL, the end of
its transaction (60_exceptions.md R246). -/
structure EndsAt (samples : List Level) (b : Block) (n : Nat) (c : Block) : Prop where
  run : runTicks (samples.take n) b = .ok c
  idle : c.phase = .idle
  first : ∀ m d, m < n → runTicks (samples.take m) b = .ok d → d.phase ≠ .idle

/-- Appending these bits in turn, the first one as bit number `k` (42_bit_decode.md R153, R155). -/
def appendAll : List Bool → BitIdx → Frame → Except Refusal Frame
  | [], _, f => .ok f
  | bit :: rest, k, f =>
    match appendBit k bit f with
    | .ok f' => appendAll rest (k + 1) f'
    | .error r => .error r

/-- The timer count that a tick works with: tc of 41_handshake.md R120. -/
def Block.tc (b : Block) : TmrCount := if b.tmrRun = true then b.tmrCnt + 1 else b.tmrCnt

/-- One phase may follow another in one step: the source's order of the phases, with the return from BIT_HIGH to
BIT_SEP and the end of a transaction (10_state.md R41). -/
def Phase.mayFollow : Phase → Phase → Bool
  | .idle, q => q == .idle || q == .reqLow
  | .reqLow, q => q == .reqLow || q == .awaitAck || q == .idle
  | .awaitAck, q => q == .awaitAck || q == .ackLow || q == .idle
  | .ackLow, q => q == .ackLow || q == .ackHigh || q == .idle
  | .ackHigh, q => q == .ackHigh || q == .bitSep || q == .idle
  | .bitSep, q => q == .bitSep || q == .bitHigh || q == .idle
  | .bitHigh, q => q == .bitHigh || q == .bitSep || q == .idle

/-- The level a timed phase waits on: L of 41_handshake.md R125 to R127 and 42_bit_decode.md R150, R152. -/
def Phase.awaited : Phase → Level
  | .idle => high
  | .reqLow => high
  | .awaitAck => high
  | .ackLow => low
  | .ackHigh => high
  | .bitSep => low
  | .bitHigh => high

/-- The timeout's outcome: ResponseTimeout in the handshake, ReadBitTimeout in the bit loop (41_handshake.md R129;
42_bit_decode.md R150, R152). -/
def Phase.timeoutCode : Phase → ResultCode
  | .idle => .responseTimeout
  | .reqLow => .responseTimeout
  | .awaitAck => .responseTimeout
  | .ackLow => .responseTimeout
  | .ackHigh => .responseTimeout
  | .bitSep => .readBitTimeout
  | .bitHigh => .readBitTimeout

/-! The line as measured segments (R179): a segment that never ends is one of 302 ticks or more (log entry 14). -/

/-- The durations of one transaction's segments; a cell is (sep_k, p_k). -/
structure Line where
  t1 : Nat
  t2 : Nat
  t3 : Nat
  cells : List (Nat × Nat)
deriving DecidableEq, Repr

/-- Every duration is at least 1 and there are 40 cells (R179). -/
structure Line.Measured (l : Line) : Prop where
  t1_pos : 1 ≤ l.t1
  t2_pos : 1 ≤ l.t2
  t3_pos : 1 ≤ l.t3
  cells_pos : ∀ c ∈ l.cells, 1 ≤ c.1 ∧ 1 ≤ c.2
  cells_length : l.cells.length = 40

/-- The samples of one bit cell: the separator Low, then the pulse High (30_encoding.md R88). -/
def cellSamples (c : Nat × Nat) : List Level := List.replicate c.1 low ++ List.replicate c.2 high

/-- The samples of the line from the first tick after the arm tick (30_encoding.md R88; 41_handshake.md R128): the
first Low is the t1-th sample, and a Low follows the last pulse. -/
def Line.samples (l : Line) : List Level :=
  List.replicate (l.t1 - 1) high ++ List.replicate l.t2 low ++ List.replicate l.t3 high ++
    l.cells.flatMap cellSamples ++ [low]

/-- How a transaction ends: its code, the ticks from the arm tick to its last tick, the bits decoded, and whether the
timer is left running. -/
structure Ending where
  code : ResultCode
  ticks : Nat
  bits : List Bool
  timerRuns : Bool
deriving DecidableEq, Repr

/-- TMO(d) (R179). -/
def tooLong (d : Nat) : Bool := decide (302 ≤ d)

/-- A duration inside a closed window, in the numbers of R179. -/
def within (lo hi d : Nat) : Bool := decide (lo ≤ d) && decide (d ≤ hi)

/-- The bit of a pulse in the numbers of 42_bit_decode.md R154. -/
def pulseBit (d : Nat) : Option Bool :=
  if within 16 34 d then some false else if within 66 79 d then some true else none

/-- f[i] = sum over j in 0..7 of bit[8i + j] << (7 - j) (R179). -/
def byteOfBits (bits : List Bool) (i : Nat) : Nat :=
  ((List.range 8).map fun j => (bits.getD (8 * i + j) false).toNat * 2 ^ (7 - j)).sum

/-- The frame of 40 bits (R179). -/
def frameOfBits (bits : List Bool) : Frame := Vector.ofFn fun i => BitVec.ofNat 8 (byteOfBits bits i.val)

/-- The outcome of a full frame (R171, R172, R179). -/
def frameCode (bits : List Bool) : ResultCode :=
  if (byteOfBits bits 0 + byteOfBits bits 1 + byteOfBits bits 2 + byteOfBits bits 3) % 256 = byteOfBits bits 4
  then .success else .checksumError

/-- The bit cells of R179, after `elapsed` ticks and with the bits so far. -/
def cellsEnding (sepErrStop : Bool) (elapsed : Nat) (bits : List Bool) : List (Nat × Nat) → Ending
  | [] => ⟨frameCode bits, elapsed, bits, false⟩
  | (sep, pulse) :: rest =>
    if tooLong sep then ⟨.readBitTimeout, elapsed + 301, bits, false⟩
    else if !within 40 70 sep then ⟨.readBitError, elapsed + sep, bits, !sepErrStop⟩
    else if tooLong pulse then ⟨.readBitTimeout, elapsed + sep + 301, bits, false⟩
    else
      match pulseBit pulse with
      | none => ⟨.readBitError, elapsed + sep + pulse, bits, false⟩
      | some b => cellsEnding sepErrStop (elapsed + sep + pulse) (bits ++ [b]) rest

/-- Outcome (R179), with the tick at which the transaction ends counted from the arm tick. -/
def Line.ending (sepErrStop : Bool) (l : Line) : Ending :=
  if tooLong l.t1 then ⟨.responseTimeout, 301, [], false⟩
  else if !within 10 200 l.t1 then ⟨.responseError, l.t1, [], false⟩
  else if tooLong l.t2 then ⟨.responseTimeout, l.t1 + 301, [], false⟩
  else if !within 70 110 l.t2 then ⟨.responseError, l.t1 + l.t2, [], false⟩
  else if tooLong l.t3 then ⟨.responseTimeout, l.t1 + l.t2 + 301, [], false⟩
  else if !within 70 100 l.t3 then ⟨.responseError, l.t1 + l.t2 + l.t3, [], false⟩
  else cellsEnding sepErrStop (l.t1 + l.t2 + l.t3) [] l.cells

end Sys2Proof.Machine
end

