-- ==== Sys2Proof/Certificates/Slice0/Obligations.lean ====
section
/-! DEFINITION. The statements for the provers. Every docstring names the rule of spec/ that it formalises, or the sections it rests on. -/

open Sys2Proof Sys2Proof.Machine

/-! ## Encoding -/

/-- 30_encoding.md R80 to R84, R90: no bit of an access is dropped, with every operand at every value. -/
def Obligations.DecodeOfEncodeIsTheAccess : Prop :=
  ∀ i : Instr, i.WellFormed → decode (encode i) = i

/-- R80 to R85: the decoder is total, its result is well-formed, and encoding it gives the word back: haw whole, and
wdata where the access is a write (a read presents none). -/
def Obligations.EncodeOfDecodeIsTheWord : Prop :=
  ∀ a : AccessWord, (decode a).WellFormed ∧ (encode (decode a)).haw = a.haw ∧
    (hawW a.haw = true → (encode (decode a)).wdata = a.wdata) ∧ (decode a).isWrite = hawW a.haw

/-- R90: the 35 rows do not overlap and together cover all 256 values of haw, and the decoder gives the access whose row
the word lies in. -/
def Obligations.EveryWordLiesInOneRow : Prop :=
  tableRows.length = 35 ∧
  ∀ haw : Haw, (tableRows.filter (fun r => r.matches haw)).length = 1 ∧
    ∀ d : Word, (decode ⟨haw, d⟩).row.matches haw = true

/-- R83, R80: words written out bit by bit from the encoding (W, RSV, REG). -/
def Obligations.WrittenOutWordsDecode : Prop :=
  decode ⟨0b0_000_0010#8, 0⟩ = .rdHum ∧
  decode ⟨0b0_000_1010#8, 7⟩ = .rdPhase ∧
  decode ⟨0b0_000_1100#8, 0⟩ = .rdRsvdC ∧
  decode ⟨0b1_000_0100#8, 3⟩ = .wrCfg 3 ∧
  decode ⟨0b1_000_0101#8, 1⟩ = .wrCmd 1 ∧
  decode ⟨0b1_000_0010#8, 0x1234⟩ = .wrHum 0x1234 ∧
  decode ⟨0b1_100_0101#8, 1⟩ = .rsv6 true 0b00_0101#6 1 ∧
  decode ⟨0b0_010_1111#8, 9⟩ = .rsv5 false 0b0_1111#5 0 ∧
  decode ⟨0b1_001_0101#8, 1⟩ = .rsv4 true 0b0101#4 1

/-- 30_encoding.md R87: the expansion of each one-access pseudo-instruction, and the test of WAIT_DONE's loop on the
STATUS it read. -/
def Obligations.PseudoInstructionsExpand : Prop :=
  (decode (assemble .poll) = .wrCmd 0x00000001#32 ∧ (assemble .poll).haw = 0x85) ∧
  (∀ signSrc sepErrStop : Bool, ∃ d : Word, decode (assemble (.setCfg signSrc sepErrStop)) = .wrCfg d ∧
    d.toNat = 2 * sepErrStop.toNat + signSrc.toNat) ∧
  decode (assemble .getHum) = .rdHum ∧
  decode (assemble .getTemp) = .rdTemp ∧
  (∀ s t : State, exec .rdStatus s = .next t → (waitDoneRepeats t.rdata = true ↔ s.block.phase ≠ .idle))

/-! ## A step is the next event -/

/-- 20_memory.md R69 and 00_scope.md R5 with the model's list of events (log entry 1): a listed host access runs the
access its word decodes to, on the state with that event taken and the wall clock's value on now_s; so a well-formed access
presented by its own word runs as itself. -/
def Obligations.StepRunsTheDecodedAccess : Prop :=
  (∀ (s : State) (haw : Haw) (d : Word) (now : Seconds) (rest : List Event),
    s.inbox = .access haw d now :: rest →
      step s = exec (decode ⟨haw, d⟩) { s with inbox := rest, nowS := now }) ∧
  (∀ (s : State) (i : Instr) (now : Seconds) (rest : List Event), i.WellFormed →
    s.inbox = .access (encode i).haw (encode i).wdata now :: rest →
      step s = exec i { s with inbox := rest, nowS := now })

/-- 41_handshake.md R120, 70_reset_and_hazards.md R260: a listed tick is one decoder step, and none while rst is
asserted. The list of events is the model's own (log entry 1), and so is the last clause, that a tick the decoder refuses is
refused: it rests on the model's stop for a bit beyond the frame (log entry 7). -/
def Obligations.StepTicksTheDecoder : Prop :=
  ∀ (s : State) (v : Level) (rest : List Event), s.inbox = .tick v :: rest →
    (s.rst = true → step s = .next { s with inbox := rest }) ∧
    (∀ b, s.rst = false → s.block.tick params v = .ok b → step s = .next { s with block := b, inbox := rest }) ∧
    (∀ r, s.rst = false → s.block.tick params v = .error r → step s = .refused r)

/-- The model's own convention (log entry 1, DESIGN CHOICE): with no event listed, the step is the one that takes the free
event. The statement holds whatever that event is. -/
def Obligations.StepDrawsAFreeEvent : Prop :=
  ∀ s : State, s.inbox = [] →
    step s = step { s with inbox := [Config.freeEvent s.drawn], drawn := s.drawn + 1 }

/-- 60_exceptions.md R230, R247, 93_implementation_defined.md: no behaviour of the block faults or hangs. Every step from
a state that meets the invariants answers a next state, whatever event comes. -/
def Obligations.StepNeverStops : Prop :=
  ∀ s : State, s.Inv → ∃ t, step s = .next t

/-! ## Host reads -/

/-- 44_register_access.md R190, 10_state.md R42: haw 0x00 reads STATUS; every bit of it is a live view of state, the
reserved bits read 0; the read changes nothing else. -/
def Obligations.ReadStatusShowsLiveFlags : Prop :=
  (∀ d : Word, decode ⟨0x00, d⟩ = .rdStatus) ∧
  ∀ s : State, ∃ t, exec .rdStatus s = .next t ∧ t = { s with rdata := t.rdata } ∧
    t.rdata.getLsbD 0 = decide (s.block.phase ≠ .idle) ∧
    t.rdata.getLsbD 1 = s.block.rdValid ∧
    t.rdata.getLsbD 2 = s.block.tmrRun ∧
    t.rdata.getLsbD 3 = s.block.lastValid ∧
    t.rdata.getLsbD 4 = s.block.polled ∧
    t.rdata.getLsbD 5 = s.block.lineOe ∧
    t.rdata.getLsbD 6 = s.block.lineOut ∧
    ∀ n, 7 ≤ n → t.rdata.getLsbD n = false

/-- 44_register_access.md R191, 10_state.md R45: haw 0x01 reads RESULT, the code of the outcome. -/
def Obligations.ReadResultShowsTheCode : Prop :=
  (∀ d : Word, decode ⟨0x01, d⟩ = .rdResult) ∧
  ∀ s : State, ∃ t, exec .rdResult s = .next t ∧ t = { s with rdata := t.rdata } ∧
    (s.block.result = .success → t.rdata = 0) ∧
    (s.block.result = .pollingIntervalError → t.rdata = 1) ∧
    (s.block.result = .responseTimeout → t.rdata = 2) ∧
    (s.block.result = .responseError → t.rdata = 3) ∧
    (s.block.result = .readBitTimeout → t.rdata = 4) ∧
    (s.block.result = .readBitError → t.rdata = 5) ∧
    (s.block.result = .checksumError → t.rdata = 6)

/-- 10_state.md R46, R47: HUM is the stored value as an unsigned number, TEMP as a signed one. -/
def Obligations.ReadHumAndTempExtend : Prop :=
  ∀ s : State,
    exec .rdHum s = .next { s with rdata := BitVec.ofNat 32 s.block.hum.toNat } ∧
    exec .rdTemp s = .next { s with rdata := BitVec.ofInt 32 s.block.temp.toInt }

/-- 44_register_access.md R194, 10_state.md R43: haw 0x04 reads CFG, its two fields and the reserved bits as 0. -/
def Obligations.ReadCfgShowsItsFields : Prop :=
  (∀ d : Word, decode ⟨0x04, d⟩ = .rdCfg) ∧
  ∀ s : State, ∃ t, exec .rdCfg s = .next t ∧ t = { s with rdata := t.rdata } ∧
    t.rdata.getLsbD 0 = s.block.cfgSignSrc ∧ t.rdata.getLsbD 1 = s.block.cfgSepErrStop ∧
    ∀ n, 2 ≤ n → t.rdata.getLsbD n = false

/-- 44_register_access.md R196, R202: CMD (haw 0x05) and the reserved slots (haw 0x0B to 0x0F) read 0 in every state, and
nothing else changes. -/
def Obligations.ReadsOfCmdAndReservedSlotsGiveZero : Prop :=
  (∀ d : Word, decode ⟨0x05, d⟩ = .rdCmd ∧ decode ⟨0x0B, d⟩ = .rdRsvdB ∧ decode ⟨0x0C, d⟩ = .rdRsvdC ∧
    decode ⟨0x0D, d⟩ = .rdRsvdD ∧ decode ⟨0x0E, d⟩ = .rdRsvdE ∧ decode ⟨0x0F, d⟩ = .rdRsvdF) ∧
  ∀ s : State,
    exec .rdCmd s = .next { s with rdata := 0 } ∧
    exec .rdRsvdB s = .next { s with rdata := 0 } ∧
    exec .rdRsvdC s = .next { s with rdata := 0 } ∧
    exec .rdRsvdD s = .next { s with rdata := 0 } ∧
    exec .rdRsvdE s = .next { s with rdata := 0 } ∧
    exec .rdRsvdF s = .next { s with rdata := 0 }

/-- 10_state.md R48, R51: LAST_POLL is last_poll, TIMER is the timer's count zero-extended. -/
def Obligations.ReadLastPollAndTimer : Prop :=
  ∀ s : State,
    exec .rdLastpoll s = .next { s with rdata := s.block.lastPoll } ∧
    exec .rdTimer s = .next { s with rdata := BitVec.ofNat 32 s.block.tmrCnt.toNat }

/-- 10_state.md R49, R50: FRAME_HI holds frame[0] in bits 31:24 down to frame[3] in bits 7:0; FRAME_CK is frame[4]. -/
def Obligations.ReadFrameWindows : Prop :=
  ∀ s : State,
    (∃ t, exec .rdFrameHi s = .next t ∧ t = { s with rdata := t.rdata } ∧
      t.rdata.toNat = s.block.frame[0].toNat * 2 ^ 24 + s.block.frame[1].toNat * 2 ^ 16 +
        s.block.frame[2].toNat * 2 ^ 8 + s.block.frame[3].toNat) ∧
    exec .rdFrameCk s = .next { s with rdata := BitVec.ofNat 32 s.block.frame[4].toNat }

/-- 10_state.md R52, R21: the fields of PHASE, with the phase codes; the reserved bits read 0. -/
def Obligations.ReadPhaseFields : Prop :=
  ∀ s : State, ∃ t, exec .rdPhase s = .next t ∧ t = { s with rdata := t.rdata } ∧
    t.rdata.extractLsb' 0 3 = (match s.block.phase with
      | .idle => 0 | .reqLow => 1 | .awaitAck => 2 | .ackLow => 3 | .ackHigh => 4 | .bitSep => 5 | .bitHigh => 6) ∧
    t.rdata.extractLsb' 3 5 = 0 ∧
    t.rdata.extractLsb' 8 6 = s.block.bitIdx ∧
    t.rdata.extractLsb' 14 2 = 0 ∧
    t.rdata.extractLsb' 16 11 = s.block.holdCnt ∧
    t.rdata.extractLsb' 27 5 = 0

/-- 20_memory.md R67, 30_encoding.md R81: every read, the reserved reads among them, changes no state: it completes and
only rdata differs. -/
def Obligations.ReadsChangeNoState : Prop :=
  ∀ (i : Instr) (s : State), i.isWrite = false → ∃ v, exec i s = .next { s with rdata := v }

/-- 10_state.md R34: the host cannot see now_latch. Two states that differ in it only give the same data to every read. -/
def Obligations.NowLatchIsInvisible : Prop :=
  ∀ (i : Instr) (s : State) (n : Seconds), i.isWrite = false →
    ∃ v, exec i s = .next { s with rdata := v } ∧
      exec i { s with block := { s.block with nowLatch := n } } =
        .next { s with block := { s.block with nowLatch := n }, rdata := v }

/-! ## Host writes -/

/-- 44_register_access.md R203: the writes with no effect, and their words, haw 0x80 to 0x83 and 0x86 to 0x8F. -/
def Obligations.IgnoredWritesHaveNoEffect : Prop :=
  (∀ d : Word,
    decode ⟨0x80, d⟩ = .wrStatus d ∧ decode ⟨0x81, d⟩ = .wrResult d ∧ decode ⟨0x82, d⟩ = .wrHum d ∧
    decode ⟨0x83, d⟩ = .wrTemp d ∧ decode ⟨0x86, d⟩ = .wrLastpoll d ∧ decode ⟨0x87, d⟩ = .wrFrameHi d ∧
    decode ⟨0x88, d⟩ = .wrFrameCk d ∧ decode ⟨0x89, d⟩ = .wrTimer d ∧ decode ⟨0x8A, d⟩ = .wrPhase d ∧
    decode ⟨0x8B, d⟩ = .wrRsvdB d ∧ decode ⟨0x8C, d⟩ = .wrRsvdC d ∧ decode ⟨0x8D, d⟩ = .wrRsvdD d ∧
    decode ⟨0x8E, d⟩ = .wrRsvdE d ∧ decode ⟨0x8F, d⟩ = .wrRsvdF d) ∧
  ∀ (d : Word) (s : State),
    exec (.wrStatus d) s = .next s ∧ exec (.wrResult d) s = .next s ∧ exec (.wrHum d) s = .next s ∧
    exec (.wrTemp d) s = .next s ∧ exec (.wrLastpoll d) s = .next s ∧ exec (.wrFrameHi d) s = .next s ∧
    exec (.wrFrameCk d) s = .next s ∧ exec (.wrTimer d) s = .next s ∧ exec (.wrPhase d) s = .next s ∧
    exec (.wrRsvdB d) s = .next s ∧ exec (.wrRsvdC d) s = .next s ∧ exec (.wrRsvdD d) s = .next s ∧
    exec (.wrRsvdE d) s = .next s ∧ exec (.wrRsvdF d) s = .next s

/-- 30_encoding.md R82, 44_register_access.md R204: a word with haw[6:4] != 000 has no effect; a read of it gives 0. The
last clauses say the same of each reserved form. -/
def Obligations.ReservedAccessesHaveNoEffect : Prop :=
  (∀ (haw : Haw) (d : Word) (s : State), haw.extractLsb' 4 3 ≠ 0 →
    (haw.getLsbD 7 = false → exec (decode ⟨haw, d⟩) s = .next { s with rdata := 0 }) ∧
    (haw.getLsbD 7 = true → exec (decode ⟨haw, d⟩) s = .next s)) ∧
  (∀ (s : State) (d : Word),
    (∀ r, exec (.rsv6 false r d) s = .next { s with rdata := 0 } ∧ exec (.rsv6 true r d) s = .next s) ∧
    (∀ r, exec (.rsv5 false r d) s = .next { s with rdata := 0 } ∧ exec (.rsv5 true r d) s = .next s) ∧
    (∀ r, exec (.rsv4 false r d) s = .next { s with rdata := 0 } ∧ exec (.rsv4 true r d) s = .next s))

/-- 44_register_access.md R195: WR_CFG (haw 0x84) in IDLE writes the two fields from wdata[1:0] and nothing else; a write while busy
is ignored entirely. (The premise on rst is R260's: a write while rst is asserted is another statement's.) -/
def Obligations.WriteCfgOnlyWhileIdle : Prop :=
  (∀ d : Word, decode ⟨0x84, d⟩ = .wrCfg d) ∧
  ∀ (d : Word) (s : State),
    (s.rst = false → s.block.phase = .idle →
      exec (.wrCfg d) s = .next { s with block :=
        { s.block with cfgSignSrc := d.getLsbD 0, cfgSepErrStop := d.getLsbD 1 } }) ∧
    (s.block.phase ≠ .idle → exec (.wrCfg d) s = .next s)

/-- 20_memory.md R67, R69, 10_state.md R43: a CFG write that takes effect is read back, its reserved bits as 0, and
writing the same value again changes nothing. -/
def Obligations.ConfigReadsBackWhatWasWritten : Prop :=
  ∀ (d : Word) (s : State), s.rst = false → s.block.phase = .idle →
    ∃ t u, exec (.wrCfg d) s = .next t ∧ exec .rdCfg t = .next u ∧ u.rdata = d &&& 0x3#32 ∧
      exec (.wrCfg d) t = .next t

/-- 40_poll_gate.md R100, R101: WR_CMD with wdata[0] = 0 has no effect at all, and a POLL while a transaction is in
flight is ignored. -/
def Obligations.PollIgnored : Prop :=
  ∀ (d : Word) (s : State),
    (d.getLsbD 0 = false → exec (.wrCmd d) s = .next s) ∧
    (s.block.phase ≠ .idle → exec (.wrCmd d) s = .next s)

/-- 40_poll_gate.md R103, with the gate's predicate of R102 on integers: a POLL the gate rejects writes result and polled
and nothing else. -/
def Obligations.PollRejectedByTheGate : Prop :=
  ∀ (d : Word) (s : State), s.rst = false → d.getLsbD 0 = true → s.block.phase = .idle →
    s.block.lastValid = true → (s.nowS.toNat : Int) - (s.block.lastPoll.toNat : Int) < 2 →
    exec (.wrCmd d) s = .next { s with block := { s.block with result := .pollingIntervalError, polled := true } }

/-- 40_poll_gate.md R104, with the gate's predicate of R102: a POLL the gate allows starts a transaction: now_s is
latched, the frame and the counters are cleared, the line is driven Low, the phase is REQ_LOW, and nothing else changes. -/
def Obligations.PollAcceptedStartsATransaction : Prop :=
  ∀ (d : Word) (s : State), s.rst = false → d.getLsbD 0 = true → s.block.phase = .idle →
    (s.block.lastValid = false ∨ (s.nowS.toNat : Int) - (s.block.lastPoll.toNat : Int) ≥ 2) →
    exec (.wrCmd d) s = .next { s with block :=
      { s.block with
        nowLatch := s.nowS
        frame := #v[0x00, 0x00, 0x00, 0x00, 0x00]
        bitIdx := 0
        holdCnt := 0
        lineOe := true
        lineOut := false
        phase := .reqLow } }

/-- 40_poll_gate.md R106, the corner cases of the gate, for a POLL in IDLE. -/
def Obligations.GateCornerCases : Prop :=
  ∀ (s : State), s.rst = false → s.block.phase = .idle →
    (s.block = Block.reset → ∃ t, exec (.wrCmd 1) s = .next t ∧ t.block.phase = .reqLow) ∧
    (s.block.lastValid = true → s.block.lastPoll.toNat + 1 = s.nowS.toNat →
      ∃ t, exec (.wrCmd 1) s = .next t ∧ t.block.phase = .idle ∧
        ∀ later : Seconds, later.toNat = s.block.lastPoll.toNat + 2 →
          ∃ u, exec (.wrCmd 1) { t with nowS := later } = .next u ∧ u.block.phase = .reqLow) ∧
    (s.block.lastValid = true → s.block.lastPoll = 0 → s.nowS = 1 →
      ∃ t, exec (.wrCmd 1) s = .next t ∧ t.block.phase = .idle ∧ t.block.result = .pollingIntervalError) ∧
    (s.block.lastValid = true → s.block.lastPoll = 0xFFFFFFFE#32 →
      ∃ t, exec (.wrCmd 1) s = .next t ∧ t.block.phase = .idle ∧ t.block.result = .pollingIntervalError)

/-- 20_memory.md R67, 30_encoding.md R85: every host access completes, and only two can change the block: WR_CFG and
WR_CMD with wdata[0] = 1, each only in IDLE and with rst released. No access changes rst, now_s or the coming events. That a
write leaves rdata as it was is the model's own choice (log entry 3). -/
def Obligations.OnlyTwoWritesChangeTheBlock : Prop :=
  ∀ (i : Instr) (s : State), ∃ t, exec i s = .next t ∧
    t.rst = s.rst ∧ t.nowS = s.nowS ∧ t.inbox = s.inbox ∧ t.drawn = s.drawn ∧
    (i.isWrite = true → t.rdata = s.rdata) ∧
    (t.block ≠ s.block → s.rst = false ∧ s.block.phase = .idle ∧
      ((∃ d, i = .wrCfg d) ∨ (∃ d : Word, i = .wrCmd d ∧ d.getLsbD 0 = true)))

/-! ## Reset -/

/-- 70_reset_and_hazards.md R260: asserting rst sets every element to its reset value in one event, from any state; while
it is asserted a tick takes no step, a host write is ignored, and a host read returns the register value of the reset
state: STATUS 0x60, every other register 0. -/
def Obligations.ResetSetsEveryElement : Prop :=
  ∀ (s : State),
    (∀ rest, s.inbox = .rstAssert :: rest →
      ∃ t, step s = .next t ∧ t.rst = true ∧ t.inbox = rest ∧
        t.block.phase = .idle ∧ t.block.holdCnt = 0 ∧ t.block.tmrCnt = 0 ∧ t.block.tmrRun = false ∧
        t.block.bitIdx = 0 ∧ t.block.frame = #v[0x00, 0x00, 0x00, 0x00, 0x00] ∧ t.block.result = .success ∧
        t.block.polled = false ∧ t.block.hum = 0 ∧ t.block.temp = 0 ∧ t.block.rdValid = false ∧
        t.block.lastPoll = 0 ∧ t.block.lastValid = false ∧ t.block.nowLatch = 0 ∧ t.block.cfgSignSrc = false ∧
        t.block.cfgSepErrStop = false ∧ t.block.lineOe = true ∧ t.block.lineOut = true ∧
        exec .rdStatus t = .next { t with rdata := 0x60 } ∧
        ∀ i : Instr, i.isWrite = false → i ≠ .rdStatus → exec i t = .next { t with rdata := 0 }) ∧
    (s.rst = true → ∀ v rest, s.inbox = .tick v :: rest → step s = .next { s with inbox := rest }) ∧
    (s.rst = true → ∀ i : Instr, i.isWrite = true → exec i s = .next s) ∧
    (s.rst = true → ∀ i : Instr, i.isWrite = false → ∃ t, exec i s = .next t ∧ t.block = s.block ∧ t.rst = true)

/-- 70_reset_and_hazards.md R262, 10_state.md R42: right after reset STATUS reads 0x00000060, and every other register
reads 0. -/
def Obligations.RegistersAfterReset : Prop :=
  ∀ s : State, s.block = Block.reset →
    exec .rdStatus s = .next { s with rdata := 0x00000060 } ∧
    exec .rdResult s = .next { s with rdata := 0 } ∧ exec .rdHum s = .next { s with rdata := 0 } ∧
    exec .rdTemp s = .next { s with rdata := 0 } ∧ exec .rdCfg s = .next { s with rdata := 0 } ∧
    exec .rdLastpoll s = .next { s with rdata := 0 } ∧ exec .rdFrameHi s = .next { s with rdata := 0 } ∧
    exec .rdFrameCk s = .next { s with rdata := 0 } ∧ exec .rdTimer s = .next { s with rdata := 0 } ∧
    exec .rdPhase s = .next { s with rdata := 0 }

/-- 70_reset_and_hazards.md R261: a reset during a transaction abandons it: no outcome is recorded, the line is output
High, the stored reading and the gate's timestamp are cleared, and once rst is released the next POLL is accepted whatever now_s is. -/
def Obligations.ResetAbandonsATransaction : Prop :=
  ∀ (s : State) (d : Word) (now : Seconds) (rest : List Event), d.getLsbD 0 = true →
    s.inbox = .rstAssert :: .rstRelease :: .access 0x85 d now :: rest →
    ∃ t u v, step s = .next t ∧ t.block.polled = false ∧ t.block.lineOe = true ∧ t.block.lineOut = true ∧
      t.block.hum = 0 ∧ t.block.temp = 0 ∧ t.block.rdValid = false ∧ t.block.lastPoll = 0 ∧ t.block.lastValid = false ∧
      step t = .next u ∧ u.rst = false ∧ u.block = t.block ∧
      step u = .next v ∧ v.block.phase = .reqLow ∧ v.block.nowLatch = now ∧ v.inbox = rest

/-! ## The tick -/

/-- 41_handshake.md R121, R120, 42_bit_decode.md R151: an IDLE tick ignores its sample and does nothing beyond the timer's
advance; so over n IDLE ticks a running timer counts on by n modulo 2^16, a stopped one keeps its count, and nothing else
changes. -/
def Obligations.IdleTicksOnlyAdvanceTheTimer : Prop :=
  (∀ (b : Block) (v : Level), b.phase = .idle →
    b.tick params v = .ok { b with tmrCnt := if b.tmrRun then b.tmrCnt + 1 else b.tmrCnt }) ∧
  ∀ (b : Block) (samples : List Level), b.phase = .idle →
    runTicks samples b = .ok { b with tmrCnt :=
      if b.tmrRun then b.tmrCnt + BitVec.ofNat 16 samples.length else b.tmrCnt }

/-- 41_handshake.md R122, R123: one REQ_LOW tick counts the hold, and the tick whose count is 1000 releases the line, resets
and starts the timer, and awaits the sensor. The sample is ignored. -/
def Obligations.RequestLowTick : Prop :=
  ∀ (b : Block) (v : Level), b.phase = .reqLow →
    ((b.holdCnt + 1).toNat ≠ 1000 →
      b.tick params v = .ok { b with holdCnt := b.holdCnt + 1, tmrCnt := b.tc }) ∧
    ((b.holdCnt + 1).toNat = 1000 →
      b.tick params v = .ok { b with
        holdCnt := 1000
        lineOut := true
        tmrCnt := 0
        tmrRun := true
        lineOe := false
        phase := .awaitAck })

/-- 41_handshake.md R122: the line is driven Low from the accepting access for exactly 1000 ticks, whatever is sampled,
and hold_cnt is the tick's number. -/
def Obligations.RequestLowLastsAThousandTicks : Prop :=
  ∀ (b : Block) (now : Seconds) (samples : List Level), samples.length = 1000 →
    (∀ n, n < 1000 → ∃ c, runTicks (samples.take n) (b.acceptPoll now) = .ok c ∧
      c.phase = .reqLow ∧ c.lineOe = true ∧ c.lineOut = false ∧ c.holdCnt.toNat = n) ∧
    (∃ c, runTicks samples (b.acceptPoll now) = .ok c ∧
      c.phase = .awaitAck ∧ c.lineOe = false ∧ c.lineOut = true ∧ c.tmrRun = true ∧ c.tmrCnt = 0 ∧
      c.holdCnt = 1000 ∧ c.bitIdx = 0)

/-- 60_exceptions.md R232: what EndTransaction writes, and nothing else. -/
def Obligations.EndTransactionWrites : Prop :=
  ∀ (b : Block) (code : ResultCode) (stop : Bool),
    b.endTransaction code stop = { b with
      tmrRun := b.tmrRun && !stop
      lineOe := true
      lineOut := true
      result := code
      polled := true
      lastPoll := b.nowLatch
      lastValid := true
      phase := .idle }

/-- 41_handshake.md R125 with R124: one AWAIT_ACK tick. -/
def Obligations.AwaitAckTick : Prop :=
  ∀ (b : Block), b.phase = .awaitAck →
    (b.tc.toNat ≤ 300 → b.tick params high = .ok { b with tmrCnt := b.tc }) ∧
    (300 < b.tc.toNat →
      b.tick params high = .ok (Block.endTransaction .responseTimeout true { b with tmrCnt := b.tc })) ∧
    (10 ≤ b.tc.toNat ∧ b.tc.toNat ≤ 200 → b.tick params low = .ok { b with tmrCnt := 0, phase := .ackLow }) ∧
    (b.tc.toNat < 10 ∨ 200 < b.tc.toNat →
      b.tick params low = .ok (Block.endTransaction .responseError true { b with tmrCnt := b.tc }))

/-- 41_handshake.md R126 with R124: one ACK_LOW tick. -/
def Obligations.AckLowTick : Prop :=
  ∀ (b : Block), b.phase = .ackLow →
    (b.tc.toNat ≤ 300 → b.tick params low = .ok { b with tmrCnt := b.tc }) ∧
    (300 < b.tc.toNat →
      b.tick params low = .ok (Block.endTransaction .responseTimeout true { b with tmrCnt := b.tc })) ∧
    (70 ≤ b.tc.toNat ∧ b.tc.toNat ≤ 110 → b.tick params high = .ok { b with tmrCnt := 0, phase := .ackHigh }) ∧
    (b.tc.toNat < 70 ∨ 110 < b.tc.toNat →
      b.tick params high = .ok (Block.endTransaction .responseError true { b with tmrCnt := b.tc }))

/-- 41_handshake.md R127 with R124: one ACK_HIGH tick. -/
def Obligations.AckHighTick : Prop :=
  ∀ (b : Block), b.phase = .ackHigh →
    (b.tc.toNat ≤ 300 → b.tick params high = .ok { b with tmrCnt := b.tc }) ∧
    (300 < b.tc.toNat →
      b.tick params high = .ok (Block.endTransaction .responseTimeout true { b with tmrCnt := b.tc })) ∧
    (70 ≤ b.tc.toNat ∧ b.tc.toNat ≤ 100 → b.tick params low = .ok { b with tmrCnt := 0, phase := .bitSep }) ∧
    (b.tc.toNat < 70 ∨ 100 < b.tc.toNat →
      b.tick params low = .ok (Block.endTransaction .responseError true { b with tmrCnt := b.tc }))

/-- 42_bit_decode.md R150, R151: one BIT_SEP tick; only the window failure's timer stop depends on cfg_sep_err_stop. -/
def Obligations.BitSeparatorTick : Prop :=
  ∀ (b : Block), b.phase = .bitSep →
    (b.tc.toNat ≤ 300 → b.tick params low = .ok { b with tmrCnt := b.tc }) ∧
    (300 < b.tc.toNat →
      b.tick params low = .ok (Block.endTransaction .readBitTimeout true { b with tmrCnt := b.tc })) ∧
    (40 ≤ b.tc.toNat ∧ b.tc.toNat ≤ 70 → b.tick params high = .ok { b with tmrCnt := 0, phase := .bitHigh }) ∧
    (b.tc.toNat < 40 ∨ 70 < b.tc.toNat →
      b.tick params high =
        .ok (Block.endTransaction .readBitError b.cfgSepErrStop { b with tmrCnt := b.tc }))

/-- 42_bit_decode.md R152 to R154: one BIT_HIGH tick. A pulse of 16 to 34 ticks appends 0 and one of 66 to 79 appends 1,
by shifting the byte bit_idx div 8 left; any other pulse is a ReadBitError; the 40th bit goes to Finalize, which does not
reset the timer. -/
def Obligations.BitPulseTick : Prop :=
  ∀ (b : Block), b.phase = .bitHigh →
    (b.tc.toNat ≤ 300 → b.tick params high = .ok { b with tmrCnt := b.tc }) ∧
    (300 < b.tc.toNat →
      b.tick params high = .ok (Block.endTransaction .readBitTimeout true { b with tmrCnt := b.tc })) ∧
    (b.tc.toNat ≤ 15 ∨ (35 ≤ b.tc.toNat ∧ b.tc.toNat ≤ 65) ∨ 80 ≤ b.tc.toNat →
      b.tick params low = .ok (Block.endTransaction .readBitError true { b with tmrCnt := b.tc })) ∧
    (∀ (bit : Bool) (h : b.bitIdx.toNat / 8 < 5),
      (16 ≤ b.tc.toNat ∧ b.tc.toNat ≤ 34 ∧ bit = false) ∨ (66 ≤ b.tc.toNat ∧ b.tc.toNat ≤ 79 ∧ bit = true) →
      let frame' : Frame := b.frame.set (b.bitIdx.toNat / 8)
        (BitVec.ofNat 8 (2 * (b.frame[b.bitIdx.toNat / 8]).toNat + bit.toNat)) h
      (b.bitIdx.toNat < 39 →
        b.tick params low = .ok { b with frame := frame', bitIdx := b.bitIdx + 1, tmrCnt := 0, phase := .bitSep }) ∧
      (b.bitIdx.toNat = 39 →
        b.tick params low =
          .ok (Block.finalize params { b with frame := frame', bitIdx := 40, tmrCnt := b.tc })))

/-- The model's own stop (log entry 7; 93_implementation_defined.md I17 says `refuse`): a bit decoded with bit_idx of 40
or more is refused by name. No state that meets the invariants does this. -/
def Obligations.BitBeyondTheFrameIsRefused : Prop :=
  ∀ (b : Block), b.phase = .bitHigh → 40 ≤ b.bitIdx.toNat →
    (16 ≤ b.tc.toNat ∧ b.tc.toNat ≤ 34) ∨ (66 ≤ b.tc.toNat ∧ b.tc.toNat ≤ 79) →
    b.tick params low = .error .bitIdxOutOfFrame

/-- 42_bit_decode.md R154: Classify on every measured duration. -/
def Obligations.ClassifyTable : Prop :=
  ∀ t : Nat,
    (16 ≤ t ∧ t ≤ 34 → classify params t = some false) ∧
    (66 ≤ t ∧ t ≤ 79 → classify params t = some true) ∧
    (t ≤ 15 ∨ (35 ≤ t ∧ t ≤ 65) ∨ 80 ≤ t → classify params t = none)

/-- 41_handshake.md R128: while the line stays at the awaited level, the timer counts the ticks from the phase's entry, up
to 300, with nothing else changed; at the 301st such tick the phase times out. So a segment left at tick d <= 301 measures
d. -/
def Obligations.MeasuredDurationIsTheSegmentLength : Prop :=
  ∀ b : Block, b.phase.timed = true → b.tmrRun = true → b.tmrCnt = 0 →
    (∀ n, n ≤ 300 → runTicks (List.replicate n b.phase.awaited) b = .ok { b with tmrCnt := BitVec.ofNat 16 n }) ∧
    runTicks (List.replicate 301 b.phase.awaited) b =
      .ok (Block.endTransaction b.phase.timeoutCode true { b with tmrCnt := 301 })

/-- 20_memory.md R61: bit number k on the line lands in frame[k div 8] at bit position 7 - (k mod 8), for all 40 bits of a
transaction, whatever stood in the frame before. -/
def Obligations.LineBitsLandInOrder : Prop :=
  ∀ (bits : List Bool) (f : Frame), bits.length = 40 →
    ∃ g : Frame, appendAll bits 0 f = .ok g ∧
      ∀ (k : Nat) (h : k < 40), (g[k / 8]'(by omega)).getLsbD (7 - k % 8) = bits[k]?.getD false

/-! ## Finalize -/

/-- 43_finalize_checksum_convert.md R170, R172 and R177, with the checksum of R171: a frame whose first four bytes add up to the fifth
modulo 256 stores the reading and ends with Success, any other ends with ChecksumError and keeps the reading. -/
def Obligations.FinalizeByChecksum : Prop :=
  ∀ b : Block,
    ((b.frame[0].toNat + b.frame[1].toNat + b.frame[2].toNat + b.frame[3].toNat) % 256 = b.frame[4].toNat →
      b.finalize params = Block.endTransaction .success true { b with
        hum := humidity b.frame
        temp := temperature params b.cfgSignSrc b.frame
        rdValid := true }) ∧
    ((b.frame[0].toNat + b.frame[1].toNat + b.frame[2].toNat + b.frame[3].toNat) % 256 ≠ b.frame[4].toNat →
      b.finalize params = Block.endTransaction .checksumError true b)

/-- 43_finalize_checksum_convert.md R173 to R176: the stored values as integers: the humidity is f0 * 256 + f1; the
temperature's magnitude is the low seven bits of f2 and f3, negated when bit 7 of the sign byte is set: f0 with cfg_sign_src
= 0, f2 with 1. So with cfg_sign_src = 0 every negative temperature comes with a humidity of 0x8000 or more. -/
def Obligations.ConvertedValues : Prop :=
  ∀ (f : Frame) (signSrc : Bool),
    (humidity f).toNat = f[0].toNat * 256 + f[1].toNat ∧
    (tempMagnitude params f).toNat = (f[2].toNat % 128) * 256 + f[3].toNat ∧
    (temperature params signSrc f).toInt =
      (if 128 ≤ (if signSrc then f[2].toNat else f[0].toNat)
        then -(((f[2].toNat % 128) * 256 + f[3].toNat : Nat) : Int)
        else (((f[2].toNat % 128) * 256 + f[3].toNat : Nat) : Int)) ∧
    ((temperature params false f).toInt < 0 → 0x8000 ≤ (humidity f).toNat)

/-- 43_finalize_checksum_convert.md R172: changing any single byte of a valid frame makes it invalid; changing two data
bytes by amounts that cancel modulo 256 does not. -/
def Obligations.ChecksumDetectsOneByte : Prop :=
  (∀ (f : Frame) (i : Fin 5) (x : Byte), checksum params f = f[4] → x ≠ f[i] →
    checksum params (f.set i x) ≠ (f.set i x)[4]) ∧
  (∀ (f : Frame) (i j : Fin 4) (x : Byte), i ≠ j → checksum params f = f[4] →
    checksum params ((f.set i.val (f[i.val] + x)).set j.val (f[j.val] - x)) = f[4])

/-! ## Rules of the whole machine -/

/-- 10_state.md R56: the state right after reset meets the invariants. -/
def Obligations.ResetMeetsTheInvariants : Prop := State.reset.Inv

/-- 10_state.md R56: every step keeps the invariants. -/
def Obligations.StepKeepsTheInvariants : Prop :=
  ∀ s t : State, s.Inv → step s = .next t → t.Inv

/-- 10_state.md R30: no step stores the temperature -32768. -/
def Obligations.TemperatureIsNeverTheMinimum : Prop :=
  ∀ s t : State, s.block.temp.toInt ≠ -32768 → step s = .next t → t.block.temp.toInt ≠ -32768

/-- 10_state.md R41: the phases move in the source's order, and never jump back except from BIT_HIGH to BIT_SEP and to
IDLE at an end. -/
def Obligations.PhasesKeepTheirOrder : Prop :=
  ∀ s t : State, step s = .next t → Phase.mayFollow s.block.phase t.block.phase = true

/-- 40_poll_gate.md R104, 10_state.md R21: only an accepted POLL leaves IDLE: the event is a host access that decodes to
WR_CMD with wdata[0] = 1, the gate allowed it, and now_s is latched. -/
def Obligations.OnlyAnAcceptedPollLeavesIdle : Prop :=
  ∀ s t : State, step s = .next t → s.block.phase = .idle → t.block.phase ≠ .idle →
    ∃ haw d now, nextEvent s = .access haw d now ∧ (∃ x : Word, decode ⟨haw, d⟩ = .wrCmd x ∧ x.getLsbD 0 = true) ∧
      s.rst = false ∧ (s.block.lastValid = false ∨ s.block.lastPoll.toNat + 2 ≤ now.toNat) ∧
      t.block.phase = .reqLow ∧ t.block.nowLatch = now

/-- 70_reset_and_hazards.md R264, 10_state.md R27, R29 to R33: without a reset, the stored reading changes only at the
tick that ends a transaction with Success; the timestamp only at the tick that ends a transaction, to the latched now_s; the
outcome only there or at a rejected POLL. -/
def Obligations.ResultsChangeOnlyAtTheEnd : Prop :=
  ∀ s t : State, step s = .next t → nextEvent s ≠ .rstAssert →
    ((t.block.hum ≠ s.block.hum ∨ t.block.temp ≠ s.block.temp ∨ t.block.rdValid ≠ s.block.rdValid) →
      s.block.phase = .bitHigh ∧ t.block.phase = .idle ∧ t.block.result = .success) ∧
    ((t.block.lastPoll ≠ s.block.lastPoll ∨ t.block.lastValid ≠ s.block.lastValid) →
      s.block.phase ≠ .idle ∧ t.block.phase = .idle ∧ t.block.lastPoll = s.block.nowLatch) ∧
    ((t.block.result ≠ s.block.result ∨ t.block.polled ≠ s.block.polled) →
      t.block.phase = .idle ∧ (s.block.phase ≠ .idle ∨ t.block.result = .pollingIntervalError))

/-- 10_state.md R28, R31, R33: polled, rd_valid and last_valid are cleared only by reset. -/
def Obligations.FlagsAreClearedOnlyByReset : Prop :=
  ∀ s t : State, step s = .next t → nextEvent s ≠ .rstAssert →
    (s.block.polled = true → t.block.polled = true) ∧
    (s.block.rdValid = true → t.block.rdValid = true) ∧
    (s.block.lastValid = true → t.block.lastValid = true)

/-- 70_reset_and_hazards.md R267: the configuration is frozen during a transaction; and no tick ever changes it. -/
def Obligations.ConfigIsFrozenDuringATransaction : Prop :=
  ∀ s t : State, step s = .next t → nextEvent s ≠ .rstAssert →
    (s.block.phase ≠ .idle ∨ ∃ v, nextEvent s = .tick v) →
    t.block.cfgSignSrc = s.block.cfgSignSrc ∧ t.block.cfgSepErrStop = s.block.cfgSepErrStop

/-- 10_state.md R54, 93_implementation_defined.md I16: what line_in reads while line_oe = 1 is never used. -/
def Obligations.DrivenLineIsNeverSampled : Prop :=
  ∀ b : Block, b.Inv → b.lineOe = true → b.tick params true = b.tick params false

/-- 42_bit_decode.md R157, 10_state.md R26, R25: without a reset, a step changes the frame or bit_idx only by accepting a
POLL, which clears both, or by a BIT_HIGH tick that appends a bit; so a failure keeps the partial frame. -/
def Obligations.FrameChangesOnlyByAppendOrAcceptance : Prop :=
  ∀ s t : State, step s = .next t → nextEvent s ≠ .rstAssert →
    (t.block.frame ≠ s.block.frame ∨ t.block.bitIdx ≠ s.block.bitIdx) →
    (s.block.phase = .idle ∧ t.block.phase = .reqLow ∧ t.block.bitIdx = 0 ∧
      t.block.frame = #v[0x00, 0x00, 0x00, 0x00, 0x00]) ∨
    (s.block.phase = .bitHigh ∧ t.block.bitIdx = s.block.bitIdx + 1 ∧ ∃ bit,
      appendBit s.block.bitIdx bit s.block.frame = .ok t.block.frame)

/-! ## Transactions -/

/-- 60_exceptions.md R247, 70_reset_and_hazards.md R272: every accepted POLL ends within 7592 ticks, whatever is sampled. -/
def Obligations.EveryTransactionEnds : Prop :=
  ∀ (b : Block) (now : Seconds) (samples : List Level), samples.length = 7592 →
    ∃ n c, n ≤ 7592 ∧ runTicks (samples.take n) (b.acceptPoll now) = .ok c ∧ c.phase = .idle ∧
      c.lastValid = true ∧ c.lastPoll = now

/-- 43_finalize_checksum_convert.md R179: the outcome of a transaction is the given function of its line, the transaction is
busy before the given tick and ends at it, a full frame is the bits' frame, Success stores its reading and any other outcome
keeps the reading that stood before. A segment of 302 ticks or more stands for one that never ends (log entry 14). -/
def Obligations.OutcomeIsAFunctionOfTheLine : Prop :=
  ∀ (b : Block) (now : Seconds) (request : List Level) (l : Line) (rest : List Level),
    request.length = 1000 → l.Measured →
    let e := l.ending b.cfgSepErrStop
    let samples := request ++ l.samples ++ rest
    (∀ n, n < 1000 + e.ticks → ∃ c, runTicks (samples.take n) (b.acceptPoll now) = .ok c ∧ c.phase ≠ .idle) ∧
    ∃ c, runTicks (samples.take (1000 + e.ticks)) (b.acceptPoll now) = .ok c ∧
      c.phase = .idle ∧ c.result = e.code ∧ c.polled = true ∧ c.tmrRun = e.timerRuns ∧ c.holdCnt = 1000 ∧
      c.bitIdx.toNat = e.bits.length ∧ c.lastPoll = now ∧ c.lastValid = true ∧
      c.lineOe = true ∧ c.lineOut = true ∧
      (e.code = .success ∨ e.code = .checksumError → c.frame = frameOfBits e.bits) ∧
      (e.code = .success → c.rdValid = true ∧ c.hum = humidity (frameOfBits e.bits) ∧
        c.temp = temperature params b.cfgSignSrc (frameOfBits e.bits)) ∧
      (e.code ≠ .success → c.rdValid = b.rdValid ∧ c.hum = b.hum ∧ c.temp = b.temp)

/-- 70_reset_and_hazards.md R272: the ticks of a transaction on the machine, whatever is sampled: an accepted POLL that has
ended (60_exceptions.md R246) ended within 7592 ticks, and one that ended with Success took at least 3390 and at most 7280. -/
def Obligations.TransactionDurations : Prop :=
  ∀ (b : Block) (now : Seconds) (samples : List Level) (n : Nat) (c : Block),
    EndsAt samples (b.acceptPoll now) n c →
    n ≤ 7592 ∧ (c.result = .success → 3390 ≤ n ∧ n ≤ 7280)
end

