-- ==== Sys2Proof/Laws/Decode.lean ====
section
/-! SUPPORT. What the decoder gives, by the highest set bit of RSV (30_encoding.md R82, R83, R90). -/

namespace Sys2Proof

theorem decode_of_rsv6 (haw : Haw) (d : Word) (h : haw.getLsbD 6 = true) :
    decode ⟨haw, d⟩ = .rsv6 (hawW haw) (haw.extractLsb' 0 6) (writeData (hawW haw) d) := by
  simp only [decode, h, cond_true]

theorem decode_of_rsv5 (haw : Haw) (d : Word) (h6 : haw.getLsbD 6 = false) (h5 : haw.getLsbD 5 = true) :
    decode ⟨haw, d⟩ = .rsv5 (hawW haw) (haw.extractLsb' 0 5) (writeData (hawW haw) d) := by
  simp only [decode, h6, h5, cond_true, cond_false]

theorem decode_of_rsv4 (haw : Haw) (d : Word) (h6 : haw.getLsbD 6 = false) (h5 : haw.getLsbD 5 = false)
    (h4 : haw.getLsbD 4 = true) :
    decode ⟨haw, d⟩ = .rsv4 (hawW haw) (haw.extractLsb' 0 4) (writeData (hawW haw) d) := by
  simp only [decode, h6, h5, h4, cond_true, cond_false]

theorem decode_of_read (haw : Haw) (d : Word) (h6 : haw.getLsbD 6 = false) (h5 : haw.getLsbD 5 = false)
    (h4 : haw.getLsbD 4 = false) (h7 : hawW haw = false) : decode ⟨haw, d⟩ = decodeRead (hawReg haw) := by
  simp only [decode, h6, h5, h4, h7, cond_false]

theorem decode_of_write (haw : Haw) (d : Word) (h6 : haw.getLsbD 6 = false) (h5 : haw.getLsbD 5 = false)
    (h4 : haw.getLsbD 4 = false) (h7 : hawW haw = true) : decode ⟨haw, d⟩ = decodeWrite (hawReg haw) d := by
  simp only [decode, h6, h5, h4, h7, cond_true, cond_false]

end Sys2Proof
end

