-- ==== Sys2Proof/Laws/State.lean ====
section
/-! SUPPORT. One lemma per field per update of Block and State, so that no later proof unfolds a record update. -/

namespace Sys2Proof.Machine

section timerReset

variable (b : Block)

@[simp] theorem Block.timerReset_phase : b.timerReset.phase = b.phase := rfl
@[simp] theorem Block.timerReset_holdCnt : b.timerReset.holdCnt = b.holdCnt := rfl
@[simp] theorem Block.timerReset_tmrCnt : b.timerReset.tmrCnt = 0 := rfl
@[simp] theorem Block.timerReset_tmrRun : b.timerReset.tmrRun = b.tmrRun := rfl
@[simp] theorem Block.timerReset_bitIdx : b.timerReset.bitIdx = b.bitIdx := rfl
@[simp] theorem Block.timerReset_frame : b.timerReset.frame = b.frame := rfl
@[simp] theorem Block.timerReset_result : b.timerReset.result = b.result := rfl
@[simp] theorem Block.timerReset_polled : b.timerReset.polled = b.polled := rfl
@[simp] theorem Block.timerReset_hum : b.timerReset.hum = b.hum := rfl
@[simp] theorem Block.timerReset_temp : b.timerReset.temp = b.temp := rfl
@[simp] theorem Block.timerReset_rdValid : b.timerReset.rdValid = b.rdValid := rfl
@[simp] theorem Block.timerReset_lastPoll : b.timerReset.lastPoll = b.lastPoll := rfl
@[simp] theorem Block.timerReset_lastValid : b.timerReset.lastValid = b.lastValid := rfl
@[simp] theorem Block.timerReset_nowLatch : b.timerReset.nowLatch = b.nowLatch := rfl
@[simp] theorem Block.timerReset_cfgSignSrc : b.timerReset.cfgSignSrc = b.cfgSignSrc := rfl
@[simp] theorem Block.timerReset_cfgSepErrStop : b.timerReset.cfgSepErrStop = b.cfgSepErrStop := rfl
@[simp] theorem Block.timerReset_lineOe : b.timerReset.lineOe = b.lineOe := rfl
@[simp] theorem Block.timerReset_lineOut : b.timerReset.lineOut = b.lineOut := rfl

end timerReset

section timerStart

variable (b : Block)

@[simp] theorem Block.timerStart_phase : b.timerStart.phase = b.phase := rfl
@[simp] theorem Block.timerStart_holdCnt : b.timerStart.holdCnt = b.holdCnt := rfl
@[simp] theorem Block.timerStart_tmrCnt : b.timerStart.tmrCnt = b.tmrCnt := rfl
@[simp] theorem Block.timerStart_tmrRun : b.timerStart.tmrRun = true := rfl
@[simp] theorem Block.timerStart_bitIdx : b.timerStart.bitIdx = b.bitIdx := rfl
@[simp] theorem Block.timerStart_frame : b.timerStart.frame = b.frame := rfl
@[simp] theorem Block.timerStart_result : b.timerStart.result = b.result := rfl
@[simp] theorem Block.timerStart_polled : b.timerStart.polled = b.polled := rfl
@[simp] theorem Block.timerStart_hum : b.timerStart.hum = b.hum := rfl
@[simp] theorem Block.timerStart_temp : b.timerStart.temp = b.temp := rfl
@[simp] theorem Block.timerStart_rdValid : b.timerStart.rdValid = b.rdValid := rfl
@[simp] theorem Block.timerStart_lastPoll : b.timerStart.lastPoll = b.lastPoll := rfl
@[simp] theorem Block.timerStart_lastValid : b.timerStart.lastValid = b.lastValid := rfl
@[simp] theorem Block.timerStart_nowLatch : b.timerStart.nowLatch = b.nowLatch := rfl
@[simp] theorem Block.timerStart_cfgSignSrc : b.timerStart.cfgSignSrc = b.cfgSignSrc := rfl
@[simp] theorem Block.timerStart_cfgSepErrStop : b.timerStart.cfgSepErrStop = b.cfgSepErrStop := rfl
@[simp] theorem Block.timerStart_lineOe : b.timerStart.lineOe = b.lineOe := rfl
@[simp] theorem Block.timerStart_lineOut : b.timerStart.lineOut = b.lineOut := rfl

end timerStart

section timerStop

variable (b : Block)

@[simp] theorem Block.timerStop_phase : b.timerStop.phase = b.phase := rfl
@[simp] theorem Block.timerStop_holdCnt : b.timerStop.holdCnt = b.holdCnt := rfl
@[simp] theorem Block.timerStop_tmrCnt : b.timerStop.tmrCnt = b.tmrCnt := rfl
@[simp] theorem Block.timerStop_tmrRun : b.timerStop.tmrRun = false := rfl
@[simp] theorem Block.timerStop_bitIdx : b.timerStop.bitIdx = b.bitIdx := rfl
@[simp] theorem Block.timerStop_frame : b.timerStop.frame = b.frame := rfl
@[simp] theorem Block.timerStop_result : b.timerStop.result = b.result := rfl
@[simp] theorem Block.timerStop_polled : b.timerStop.polled = b.polled := rfl
@[simp] theorem Block.timerStop_hum : b.timerStop.hum = b.hum := rfl
@[simp] theorem Block.timerStop_temp : b.timerStop.temp = b.temp := rfl
@[simp] theorem Block.timerStop_rdValid : b.timerStop.rdValid = b.rdValid := rfl
@[simp] theorem Block.timerStop_lastPoll : b.timerStop.lastPoll = b.lastPoll := rfl
@[simp] theorem Block.timerStop_lastValid : b.timerStop.lastValid = b.lastValid := rfl
@[simp] theorem Block.timerStop_nowLatch : b.timerStop.nowLatch = b.nowLatch := rfl
@[simp] theorem Block.timerStop_cfgSignSrc : b.timerStop.cfgSignSrc = b.cfgSignSrc := rfl
@[simp] theorem Block.timerStop_cfgSepErrStop : b.timerStop.cfgSepErrStop = b.cfgSepErrStop := rfl
@[simp] theorem Block.timerStop_lineOe : b.timerStop.lineOe = b.lineOe := rfl
@[simp] theorem Block.timerStop_lineOut : b.timerStop.lineOut = b.lineOut := rfl

end timerStop

section timerAdvance

variable (b : Block)

@[simp] theorem Block.timerAdvance_phase : b.timerAdvance.phase = b.phase := rfl
@[simp] theorem Block.timerAdvance_holdCnt : b.timerAdvance.holdCnt = b.holdCnt := rfl
@[simp] theorem Block.timerAdvance_tmrCnt : b.timerAdvance.tmrCnt = if b.tmrRun then b.tmrCnt + 1 else b.tmrCnt := rfl
@[simp] theorem Block.timerAdvance_tmrRun : b.timerAdvance.tmrRun = b.tmrRun := rfl
@[simp] theorem Block.timerAdvance_bitIdx : b.timerAdvance.bitIdx = b.bitIdx := rfl
@[simp] theorem Block.timerAdvance_frame : b.timerAdvance.frame = b.frame := rfl
@[simp] theorem Block.timerAdvance_result : b.timerAdvance.result = b.result := rfl
@[simp] theorem Block.timerAdvance_polled : b.timerAdvance.polled = b.polled := rfl
@[simp] theorem Block.timerAdvance_hum : b.timerAdvance.hum = b.hum := rfl
@[simp] theorem Block.timerAdvance_temp : b.timerAdvance.temp = b.temp := rfl
@[simp] theorem Block.timerAdvance_rdValid : b.timerAdvance.rdValid = b.rdValid := rfl
@[simp] theorem Block.timerAdvance_lastPoll : b.timerAdvance.lastPoll = b.lastPoll := rfl
@[simp] theorem Block.timerAdvance_lastValid : b.timerAdvance.lastValid = b.lastValid := rfl
@[simp] theorem Block.timerAdvance_nowLatch : b.timerAdvance.nowLatch = b.nowLatch := rfl
@[simp] theorem Block.timerAdvance_cfgSignSrc : b.timerAdvance.cfgSignSrc = b.cfgSignSrc := rfl
@[simp] theorem Block.timerAdvance_cfgSepErrStop : b.timerAdvance.cfgSepErrStop = b.cfgSepErrStop := rfl
@[simp] theorem Block.timerAdvance_lineOe : b.timerAdvance.lineOe = b.lineOe := rfl
@[simp] theorem Block.timerAdvance_lineOut : b.timerAdvance.lineOut = b.lineOut := rfl

end timerAdvance

section endTransaction

variable (b : Block) (c : ResultCode) (st : Bool)

@[simp] theorem Block.endTransaction_phase : (b.endTransaction c st).phase = .idle := rfl
@[simp] theorem Block.endTransaction_holdCnt : (b.endTransaction c st).holdCnt = b.holdCnt := rfl
@[simp] theorem Block.endTransaction_tmrCnt : (b.endTransaction c st).tmrCnt = b.tmrCnt := rfl
@[simp] theorem Block.endTransaction_tmrRun : (b.endTransaction c st).tmrRun = if st then false else b.tmrRun := rfl
@[simp] theorem Block.endTransaction_bitIdx : (b.endTransaction c st).bitIdx = b.bitIdx := rfl
@[simp] theorem Block.endTransaction_frame : (b.endTransaction c st).frame = b.frame := rfl
@[simp] theorem Block.endTransaction_result : (b.endTransaction c st).result = c := rfl
@[simp] theorem Block.endTransaction_polled : (b.endTransaction c st).polled = true := rfl
@[simp] theorem Block.endTransaction_hum : (b.endTransaction c st).hum = b.hum := rfl
@[simp] theorem Block.endTransaction_temp : (b.endTransaction c st).temp = b.temp := rfl
@[simp] theorem Block.endTransaction_rdValid : (b.endTransaction c st).rdValid = b.rdValid := rfl
@[simp] theorem Block.endTransaction_lastPoll : (b.endTransaction c st).lastPoll = b.nowLatch := rfl
@[simp] theorem Block.endTransaction_lastValid : (b.endTransaction c st).lastValid = true := rfl
@[simp] theorem Block.endTransaction_nowLatch : (b.endTransaction c st).nowLatch = b.nowLatch := rfl
@[simp] theorem Block.endTransaction_cfgSignSrc : (b.endTransaction c st).cfgSignSrc = b.cfgSignSrc := rfl
@[simp] theorem Block.endTransaction_cfgSepErrStop : (b.endTransaction c st).cfgSepErrStop = b.cfgSepErrStop := rfl
@[simp] theorem Block.endTransaction_lineOe : (b.endTransaction c st).lineOe = true := rfl
@[simp] theorem Block.endTransaction_lineOut : (b.endTransaction c st).lineOut = high := rfl

end endTransaction

section enterTimed

variable (b : Block) (q : Phase)

@[simp] theorem Block.enterTimed_phase : (b.enterTimed q).phase = q := rfl
@[simp] theorem Block.enterTimed_holdCnt : (b.enterTimed q).holdCnt = b.holdCnt := rfl
@[simp] theorem Block.enterTimed_tmrCnt : (b.enterTimed q).tmrCnt = 0 := rfl
@[simp] theorem Block.enterTimed_tmrRun : (b.enterTimed q).tmrRun = b.tmrRun := rfl
@[simp] theorem Block.enterTimed_bitIdx : (b.enterTimed q).bitIdx = b.bitIdx := rfl
@[simp] theorem Block.enterTimed_frame : (b.enterTimed q).frame = b.frame := rfl
@[simp] theorem Block.enterTimed_result : (b.enterTimed q).result = b.result := rfl
@[simp] theorem Block.enterTimed_polled : (b.enterTimed q).polled = b.polled := rfl
@[simp] theorem Block.enterTimed_hum : (b.enterTimed q).hum = b.hum := rfl
@[simp] theorem Block.enterTimed_temp : (b.enterTimed q).temp = b.temp := rfl
@[simp] theorem Block.enterTimed_rdValid : (b.enterTimed q).rdValid = b.rdValid := rfl
@[simp] theorem Block.enterTimed_lastPoll : (b.enterTimed q).lastPoll = b.lastPoll := rfl
@[simp] theorem Block.enterTimed_lastValid : (b.enterTimed q).lastValid = b.lastValid := rfl
@[simp] theorem Block.enterTimed_nowLatch : (b.enterTimed q).nowLatch = b.nowLatch := rfl
@[simp] theorem Block.enterTimed_cfgSignSrc : (b.enterTimed q).cfgSignSrc = b.cfgSignSrc := rfl
@[simp] theorem Block.enterTimed_cfgSepErrStop : (b.enterTimed q).cfgSepErrStop = b.cfgSepErrStop := rfl
@[simp] theorem Block.enterTimed_lineOe : (b.enterTimed q).lineOe = b.lineOe := rfl
@[simp] theorem Block.enterTimed_lineOut : (b.enterTimed q).lineOut = b.lineOut := rfl

end enterTimed

section releaseAndArm

variable (b : Block)

@[simp] theorem Block.releaseAndArm_phase : b.releaseAndArm.phase = .awaitAck := rfl
@[simp] theorem Block.releaseAndArm_holdCnt : b.releaseAndArm.holdCnt = b.holdCnt := rfl
@[simp] theorem Block.releaseAndArm_tmrCnt : b.releaseAndArm.tmrCnt = 0 := rfl
@[simp] theorem Block.releaseAndArm_tmrRun : b.releaseAndArm.tmrRun = true := rfl
@[simp] theorem Block.releaseAndArm_bitIdx : b.releaseAndArm.bitIdx = b.bitIdx := rfl
@[simp] theorem Block.releaseAndArm_frame : b.releaseAndArm.frame = b.frame := rfl
@[simp] theorem Block.releaseAndArm_result : b.releaseAndArm.result = b.result := rfl
@[simp] theorem Block.releaseAndArm_polled : b.releaseAndArm.polled = b.polled := rfl
@[simp] theorem Block.releaseAndArm_hum : b.releaseAndArm.hum = b.hum := rfl
@[simp] theorem Block.releaseAndArm_temp : b.releaseAndArm.temp = b.temp := rfl
@[simp] theorem Block.releaseAndArm_rdValid : b.releaseAndArm.rdValid = b.rdValid := rfl
@[simp] theorem Block.releaseAndArm_lastPoll : b.releaseAndArm.lastPoll = b.lastPoll := rfl
@[simp] theorem Block.releaseAndArm_lastValid : b.releaseAndArm.lastValid = b.lastValid := rfl
@[simp] theorem Block.releaseAndArm_nowLatch : b.releaseAndArm.nowLatch = b.nowLatch := rfl
@[simp] theorem Block.releaseAndArm_cfgSignSrc : b.releaseAndArm.cfgSignSrc = b.cfgSignSrc := rfl
@[simp] theorem Block.releaseAndArm_cfgSepErrStop : b.releaseAndArm.cfgSepErrStop = b.cfgSepErrStop := rfl
@[simp] theorem Block.releaseAndArm_lineOe : b.releaseAndArm.lineOe = false := rfl
@[simp] theorem Block.releaseAndArm_lineOut : b.releaseAndArm.lineOut = high := rfl

end releaseAndArm

section storeReading

variable (b : Block) (p : Params)

@[simp] theorem Block.storeReading_phase : (b.storeReading p).phase = b.phase := rfl
@[simp] theorem Block.storeReading_holdCnt : (b.storeReading p).holdCnt = b.holdCnt := rfl
@[simp] theorem Block.storeReading_tmrCnt : (b.storeReading p).tmrCnt = b.tmrCnt := rfl
@[simp] theorem Block.storeReading_tmrRun : (b.storeReading p).tmrRun = b.tmrRun := rfl
@[simp] theorem Block.storeReading_bitIdx : (b.storeReading p).bitIdx = b.bitIdx := rfl
@[simp] theorem Block.storeReading_frame : (b.storeReading p).frame = b.frame := rfl
@[simp] theorem Block.storeReading_result : (b.storeReading p).result = b.result := rfl
@[simp] theorem Block.storeReading_polled : (b.storeReading p).polled = b.polled := rfl
@[simp] theorem Block.storeReading_hum : (b.storeReading p).hum = humidity b.frame := rfl
@[simp] theorem Block.storeReading_temp : (b.storeReading p).temp = temperature p b.cfgSignSrc b.frame := rfl
@[simp] theorem Block.storeReading_rdValid : (b.storeReading p).rdValid = true := rfl
@[simp] theorem Block.storeReading_lastPoll : (b.storeReading p).lastPoll = b.lastPoll := rfl
@[simp] theorem Block.storeReading_lastValid : (b.storeReading p).lastValid = b.lastValid := rfl
@[simp] theorem Block.storeReading_nowLatch : (b.storeReading p).nowLatch = b.nowLatch := rfl
@[simp] theorem Block.storeReading_cfgSignSrc : (b.storeReading p).cfgSignSrc = b.cfgSignSrc := rfl
@[simp] theorem Block.storeReading_cfgSepErrStop : (b.storeReading p).cfgSepErrStop = b.cfgSepErrStop := rfl
@[simp] theorem Block.storeReading_lineOe : (b.storeReading p).lineOe = b.lineOe := rfl
@[simp] theorem Block.storeReading_lineOut : (b.storeReading p).lineOut = b.lineOut := rfl

end storeReading

section acceptPoll

variable (b : Block) (now : Seconds)

@[simp] theorem Block.acceptPoll_phase : (b.acceptPoll now).phase = .reqLow := rfl
@[simp] theorem Block.acceptPoll_holdCnt : (b.acceptPoll now).holdCnt = 0 := rfl
@[simp] theorem Block.acceptPoll_tmrCnt : (b.acceptPoll now).tmrCnt = b.tmrCnt := rfl
@[simp] theorem Block.acceptPoll_tmrRun : (b.acceptPoll now).tmrRun = b.tmrRun := rfl
@[simp] theorem Block.acceptPoll_bitIdx : (b.acceptPoll now).bitIdx = 0 := rfl
@[simp] theorem Block.acceptPoll_frame : (b.acceptPoll now).frame = #v[0x00, 0x00, 0x00, 0x00, 0x00] := rfl
@[simp] theorem Block.acceptPoll_result : (b.acceptPoll now).result = b.result := rfl
@[simp] theorem Block.acceptPoll_polled : (b.acceptPoll now).polled = b.polled := rfl
@[simp] theorem Block.acceptPoll_hum : (b.acceptPoll now).hum = b.hum := rfl
@[simp] theorem Block.acceptPoll_temp : (b.acceptPoll now).temp = b.temp := rfl
@[simp] theorem Block.acceptPoll_rdValid : (b.acceptPoll now).rdValid = b.rdValid := rfl
@[simp] theorem Block.acceptPoll_lastPoll : (b.acceptPoll now).lastPoll = b.lastPoll := rfl
@[simp] theorem Block.acceptPoll_lastValid : (b.acceptPoll now).lastValid = b.lastValid := rfl
@[simp] theorem Block.acceptPoll_nowLatch : (b.acceptPoll now).nowLatch = now := rfl
@[simp] theorem Block.acceptPoll_cfgSignSrc : (b.acceptPoll now).cfgSignSrc = b.cfgSignSrc := rfl
@[simp] theorem Block.acceptPoll_cfgSepErrStop : (b.acceptPoll now).cfgSepErrStop = b.cfgSepErrStop := rfl
@[simp] theorem Block.acceptPoll_lineOe : (b.acceptPoll now).lineOe = true := rfl
@[simp] theorem Block.acceptPoll_lineOut : (b.acceptPoll now).lineOut = low := rfl

end acceptPoll

section rejectPoll

variable (b : Block)

@[simp] theorem Block.rejectPoll_phase : b.rejectPoll.phase = b.phase := rfl
@[simp] theorem Block.rejectPoll_holdCnt : b.rejectPoll.holdCnt = b.holdCnt := rfl
@[simp] theorem Block.rejectPoll_tmrCnt : b.rejectPoll.tmrCnt = b.tmrCnt := rfl
@[simp] theorem Block.rejectPoll_tmrRun : b.rejectPoll.tmrRun = b.tmrRun := rfl
@[simp] theorem Block.rejectPoll_bitIdx : b.rejectPoll.bitIdx = b.bitIdx := rfl
@[simp] theorem Block.rejectPoll_frame : b.rejectPoll.frame = b.frame := rfl
@[simp] theorem Block.rejectPoll_result : b.rejectPoll.result = .pollingIntervalError := rfl
@[simp] theorem Block.rejectPoll_polled : b.rejectPoll.polled = true := rfl
@[simp] theorem Block.rejectPoll_hum : b.rejectPoll.hum = b.hum := rfl
@[simp] theorem Block.rejectPoll_temp : b.rejectPoll.temp = b.temp := rfl
@[simp] theorem Block.rejectPoll_rdValid : b.rejectPoll.rdValid = b.rdValid := rfl
@[simp] theorem Block.rejectPoll_lastPoll : b.rejectPoll.lastPoll = b.lastPoll := rfl
@[simp] theorem Block.rejectPoll_lastValid : b.rejectPoll.lastValid = b.lastValid := rfl
@[simp] theorem Block.rejectPoll_nowLatch : b.rejectPoll.nowLatch = b.nowLatch := rfl
@[simp] theorem Block.rejectPoll_cfgSignSrc : b.rejectPoll.cfgSignSrc = b.cfgSignSrc := rfl
@[simp] theorem Block.rejectPoll_cfgSepErrStop : b.rejectPoll.cfgSepErrStop = b.cfgSepErrStop := rfl
@[simp] theorem Block.rejectPoll_lineOe : b.rejectPoll.lineOe = b.lineOe := rfl
@[simp] theorem Block.rejectPoll_lineOut : b.rejectPoll.lineOut = b.lineOut := rfl

end rejectPoll

section assertRst

variable (s : State)

@[simp] theorem assertRst_block : (assertRst s).block = Block.reset := rfl
@[simp] theorem assertRst_rst : (assertRst s).rst = true := rfl
@[simp] theorem assertRst_nowS : (assertRst s).nowS = s.nowS := rfl
@[simp] theorem assertRst_rdata : (assertRst s).rdata = s.rdata := rfl
@[simp] theorem assertRst_inbox : (assertRst s).inbox = s.inbox := rfl
@[simp] theorem assertRst_drawn : (assertRst s).drawn = s.drawn := rfl

end assertRst

section releaseRst

variable (s : State)

@[simp] theorem releaseRst_block : (releaseRst s).block = s.block := rfl
@[simp] theorem releaseRst_rst : (releaseRst s).rst = false := rfl
@[simp] theorem releaseRst_nowS : (releaseRst s).nowS = s.nowS := rfl
@[simp] theorem releaseRst_rdata : (releaseRst s).rdata = s.rdata := rfl
@[simp] theorem releaseRst_inbox : (releaseRst s).inbox = s.inbox := rfl
@[simp] theorem releaseRst_drawn : (releaseRst s).drawn = s.drawn := rfl

end releaseRst

section presentNow

variable (s : State) (now : Seconds)

@[simp] theorem presentNow_block : (presentNow now s).block = s.block := rfl
@[simp] theorem presentNow_rst : (presentNow now s).rst = s.rst := rfl
@[simp] theorem presentNow_nowS : (presentNow now s).nowS = now := rfl
@[simp] theorem presentNow_rdata : (presentNow now s).rdata = s.rdata := rfl
@[simp] theorem presentNow_inbox : (presentNow now s).inbox = s.inbox := rfl
@[simp] theorem presentNow_drawn : (presentNow now s).drawn = s.drawn := rfl

end presentNow

section takeEvent

variable (s : State)

@[simp] theorem takeEvent_block : (takeEvent s).block = s.block := by unfold takeEvent; split <;> rfl
@[simp] theorem takeEvent_rst : (takeEvent s).rst = s.rst := by unfold takeEvent; split <;> rfl
@[simp] theorem takeEvent_nowS : (takeEvent s).nowS = s.nowS := by unfold takeEvent; split <;> rfl
@[simp] theorem takeEvent_rdata : (takeEvent s).rdata = s.rdata := by unfold takeEvent; split <;> rfl

theorem takeEvent_listed (e : Event) (rest : List Event) (h : s.inbox = e :: rest) :
    takeEvent s = { s with inbox := rest } := by simp [takeEvent, h]

theorem nextEvent_listed (e : Event) (rest : List Event) (h : s.inbox = e :: rest) : nextEvent s = e := by
  simp [nextEvent, h]

end takeEvent

end Sys2Proof.Machine
end

