-- ==== Sys2Proof/Laws/Ops.lean ====
section
/-! SUPPORT. One lemma per shared operation, saying once what it can do. -/

namespace Sys2Proof.Machine

/-! ## Conditions -/

theorem Block.busy_eq_false_iff (b : Block) : b.busy = false ↔ b.phase = .idle := by simp [Block.busy]

theorem Block.busy_eq_true_iff (b : Block) : b.busy = true ↔ b.phase ≠ .idle := by simp [Block.busy]

theorem Block.gateAllows_iff (p : Params) (b : Block) (now : Seconds) :
    b.gateAllows p now = true ↔ b.lastValid = false ∨ b.lastPoll.toNat + p.pollIntervalS ≤ now.toNat := by
  simp only [Block.gateAllows, Bool.or_eq_true, Bool.not_eq_true', decide_eq_true_iff]
  exact or_congr_right (by omega)

theorem timedOut_iff (p : Params) (t : Nat) : timedOut p t = true ↔ p.timeoutUs < t := by simp [timedOut]

theorem closedWindow_pass {lo hi t : Nat} (h : lo ≤ t ∧ t ≤ hi) : closedWindow lo hi t = some () := by
  simp [closedWindow, h]

theorem closedWindow_fail {lo hi t : Nat} (h : ¬(lo ≤ t ∧ t ≤ hi)) : closedWindow lo hi t = none := by
  unfold closedWindow; rw [if_neg h]

theorem closedWindow_none {lo hi t : Nat} (h : closedWindow lo hi t = none) : ¬(lo ≤ t ∧ t ≤ hi) := by
  intro hp
  rw [closedWindow_pass hp] at h
  cases h

theorem closedWindow_eq_some_iff (lo hi t : Nat) (u : Unit) :
    closedWindow lo hi t = some u ↔ lo ≤ t ∧ t ≤ hi := by
  unfold closedWindow; split <;> simp_all

theorem classify_eq_some_false_iff (t : Nat) : classify params t = some false ↔ 16 ≤ t ∧ t ≤ 34 := by
  unfold classify params; dsimp only
  split
  · simp; omega
  · split
    · simp; omega
    · simp; omega

theorem classify_eq_some_true_iff (t : Nat) : classify params t = some true ↔ 66 ≤ t ∧ t ≤ 79 := by
  unfold classify params; dsimp only
  split
  · simp; omega
  · split
    · simp; omega
    · simp; omega

/-! ## The wait primitive -/

/-- Everything a wait can do (41_handshake.md R124). -/
theorem Block.wait_cases {α : Type} {p : Params} {s level : Level} {accept : Nat → Option α}
    {tmo err : ResultCode} {stop : Bool} {onPass : α → Block → Except Refusal Block} {b : Block}
    {r : Except Refusal Block} (h : b.wait p s level accept tmo err stop onPass = r) :
    (s = level ∧ p.timeoutUs < b.elapsed ∧ r = .ok (b.endTransaction tmo true)) ∨
    (s = level ∧ b.elapsed ≤ p.timeoutUs ∧ r = .ok b) ∨
    (s ≠ level ∧ ∃ a, accept b.elapsed = some a ∧ r = onPass a b) ∨
    (s ≠ level ∧ accept b.elapsed = none ∧ r = .ok (b.endTransaction err stop)) := by
  subst h
  unfold Block.wait
  by_cases hs : s = level
  · rw [if_pos hs]
    by_cases ht : timedOut p b.elapsed = true
    · rw [if_pos ht]
      exact .inl ⟨hs, (timedOut_iff p b.elapsed).mp ht, rfl⟩
    · rw [if_neg ht]
      exact .inr (.inl ⟨hs, not_lt.mp fun hlt => ht ((timedOut_iff p b.elapsed).mpr hlt), rfl⟩)
  · rw [if_neg hs]
    cases ha : accept b.elapsed with
    | some a => exact .inr (.inr (.inl ⟨hs, a, rfl, rfl⟩))
    | none => exact .inr (.inr (.inr ⟨hs, rfl, rfl⟩))

section wait

variable {α : Type} {p : Params} {s level : Level} {accept : Nat → Option α} {tmo err : ResultCode} {stop : Bool}
  {onPass : α → Block → Except Refusal Block} {b : Block}

theorem Block.wait_stay (hs : s = level) (ht : b.elapsed ≤ p.timeoutUs) :
    b.wait p s level accept tmo err stop onPass = .ok b := by
  rcases Block.wait_cases (rfl : b.wait p s level accept tmo err stop onPass = _) with
    ⟨_, h, _⟩ | ⟨_, _, e⟩ | ⟨h, _⟩ | ⟨h, _⟩
  · omega
  · exact e
  · exact absurd hs h
  · exact absurd hs h

theorem Block.wait_timeout (hs : s = level) (ht : p.timeoutUs < b.elapsed) :
    b.wait p s level accept tmo err stop onPass = .ok (b.endTransaction tmo true) := by
  rcases Block.wait_cases (rfl : b.wait p s level accept tmo err stop onPass = _) with
    ⟨_, _, e⟩ | ⟨_, h, _⟩ | ⟨h, _⟩ | ⟨h, _⟩
  · exact e
  · omega
  · exact absurd hs h
  · exact absurd hs h

theorem Block.wait_pass {a : α} (hs : s ≠ level) (ha : accept b.elapsed = some a) :
    b.wait p s level accept tmo err stop onPass = onPass a b := by
  rcases Block.wait_cases (rfl : b.wait p s level accept tmo err stop onPass = _) with
    ⟨h, _⟩ | ⟨h, _⟩ | ⟨_, a', ha', e⟩ | ⟨_, ha', _⟩
  · exact absurd h hs
  · exact absurd h hs
  · rw [ha] at ha'
    injection ha' with ha'
    exact ha' ▸ e
  · rw [ha] at ha'
    cases ha'

theorem Block.wait_fail (hs : s ≠ level) (ha : accept b.elapsed = none) :
    b.wait p s level accept tmo err stop onPass = .ok (b.endTransaction err stop) := by
  rcases Block.wait_cases (rfl : b.wait p s level accept tmo err stop onPass = _) with
    ⟨h, _⟩ | ⟨h, _⟩ | ⟨_, _, ha', _⟩ | ⟨_, _, e⟩
  · exact absurd h hs
  · exact absurd h hs
  · rw [ha] at ha'
    cases ha'
  · exact e

end wait

/-! ## Host accesses -/

/-- A host read writes rdata and nothing else. -/
theorem hostRead_eq (v : Word) (s : State) : hostRead v s = .next { s with rdata := v } := rfl

theorem hostWrite_held (f : Block → Block) (s : State) (h : s.rst = true) : hostWrite f s = .next s := by
  simp [hostWrite, h]

theorem hostWrite_free (f : Block → Block) (s : State) (h : s.rst = false) :
    hostWrite f s = .next { s with block := f s.block } := by simp [hostWrite, h]

theorem reservedAccess_read (s : State) : reservedAccess false s = .next { s with rdata := 0 } := rfl

theorem reservedAccess_write (s : State) : reservedAccess true s = .next s := rfl

/-- Everything POLL can do to the block (40_poll_gate.md R100 to R104). -/
theorem Block.poll_cases (p : Params) (now : Seconds) (b : Block) :
    (b.phase ≠ .idle ∧ b.poll p now = b) ∨
    (b.phase = .idle ∧ b.gateAllows p now = true ∧ b.poll p now = b.acceptPoll now) ∨
    (b.phase = .idle ∧ b.gateAllows p now = false ∧ b.poll p now = b.rejectPoll) := by
  unfold Block.poll
  by_cases hb : b.busy = true
  · rw [if_pos hb]
    exact .inl ⟨(Block.busy_eq_true_iff b).mp hb, rfl⟩
  · rw [if_neg hb]
    have hi : b.phase = .idle := (Block.busy_eq_false_iff b).mp (by simpa using hb)
    cases hg : b.gateAllows p now
    · exact .inr (.inr ⟨hi, rfl, rfl⟩)
    · exact .inr (.inl ⟨hi, rfl, rfl⟩)

/-! ## The frame -/

theorem appendBit_in (k : BitIdx) (bit : Bool) (f : Frame) (h : k.toNat / 8 < 5) :
    appendBit k bit f = .ok (f.set (k.toNat / 8) (shiftIn f[k.toNat / 8] bit)) := by
  unfold appendBit; rw [dif_pos h]

theorem appendBit_out (k : BitIdx) (bit : Bool) (f : Frame) (h : 5 ≤ k.toNat / 8) :
    appendBit k bit f = .error .bitIdxOutOfFrame := by
  unfold appendBit; rw [dif_neg (by omega)]

/-- The checksum is the sum modulo 256 (43_finalize_checksum_convert.md R171). -/
theorem checksum_toNat (f : Frame) :
    (checksum params f).toNat = (f[0].toNat + f[1].toNat + f[2].toNat + f[3].toNat) % 256 := by
  have h : ∀ n : Nat, n &&& 255 = n % 256 := fun n => Nat.and_two_pow_sub_one_eq_mod n 8
  simp [checksum, params, h]

/-- Finalize ends the transaction, and does nothing before that but store the reading of a valid frame (R170). -/
theorem Block.finalize_cases (p : Params) (b : Block) :
    (checksum p b.frame = b.frame[4] ∧ b.finalize p = (b.storeReading p).endTransaction .success true) ∨
    (checksum p b.frame ≠ b.frame[4] ∧ b.finalize p = b.endTransaction .checksumError true) := by
  unfold Block.finalize
  split
  · exact .inl ⟨‹_›, rfl⟩
  · exact .inr ⟨‹_›, rfl⟩

/-- Everything a decoded bit can do (42_bit_decode.md R152), inside the frame. -/
theorem Block.takeBit_cases (b : Block) (bit : Bool) (h : b.bitIdx.toNat < 40) :
    ∃ f, appendBit b.bitIdx bit b.frame = .ok f ∧
      ((b.bitIdx.toNat = 39 ∧ b.takeBit params bit =
          .ok (Block.finalize params { b with frame := f, bitIdx := b.bitIdx + 1 })) ∨
       (b.bitIdx.toNat < 39 ∧ b.takeBit params bit =
          .ok (Block.enterTimed .bitSep { b with frame := f, bitIdx := b.bitIdx + 1 }))) := by
  have hin : b.bitIdx.toNat / 8 < 5 := by omega
  have hadd : (b.bitIdx + 1).toNat = b.bitIdx.toNat + 1 := by
    rw [BitVec.toNat_add]; simp; omega
  refine ⟨_, appendBit_in _ bit _ hin, ?_⟩
  unfold Block.takeBit
  rw [appendBit_in _ bit _ hin]
  dsimp only
  by_cases h39 : b.bitIdx.toNat = 39
  · refine .inl ⟨h39, if_pos ?_⟩
    rw [hadd, h39]; rfl
  · refine .inr ⟨by omega, if_neg ?_⟩
    rw [hadd]
    intro hc
    exact h39 (by simpa [params] using hc)

/-! ## Events -/

/-- Everything a tick event can do. -/
theorem tickEvent_cases (lineIn : Level) (s : State) :
    (s.rst = true ∧ tickEvent lineIn s = .next s) ∨
    (s.rst = false ∧ ∃ b, s.block.tick params lineIn = .ok b ∧ tickEvent lineIn s = .next { s with block := b }) ∨
    (s.rst = false ∧ ∃ r, s.block.tick params lineIn = .error r ∧ tickEvent lineIn s = .refused r) := by
  unfold tickEvent
  cases hr : s.rst
  · cases ht : s.block.tick params lineIn with
    | ok b => exact .inr (.inl ⟨rfl, b, rfl, rfl⟩)
    | error r => exact .inr (.inr ⟨rfl, r, rfl, rfl⟩)
  · exact .inl ⟨rfl, rfl⟩

/-- Everything a host access can do: write rdata, nothing, or, for the two effective writes with rst released,
change the block (20_memory.md R67; 30_encoding.md R85). -/
theorem exec_cases (i : Instr) (s : State) :
    (∃ v, exec i s = .next { s with rdata := v }) ∨ exec i s = .next s ∨
    (∃ d, i = .wrCfg d ∧ s.rst = false ∧ exec i s = .next { s with block := s.block.writeCfg d }) ∨
    (∃ d, i = .wrCmd d ∧ s.rst = false ∧
      exec i s = .next { s with block := if wdataPoll d then s.block.poll params s.nowS else s.block }) := by
  cases i with
  | wrCfg d =>
    rcases Bool.eq_false_or_eq_true s.rst with hr | hr
    · exact .inr (.inl (hostWrite_held _ s hr))
    · exact .inr (.inr (.inl ⟨d, rfl, hr, hostWrite_free _ s hr⟩))
  | wrCmd d =>
    rcases Bool.eq_false_or_eq_true s.rst with hr | hr
    · exact .inr (.inl (hostWrite_held _ s hr))
    · exact .inr (.inr (.inr ⟨d, rfl, hr, hostWrite_free _ s hr⟩))
  | rsv6 w rest d => cases w <;> [exact .inl ⟨0, rfl⟩; exact .inr (.inl rfl)]
  | rsv5 w rest d => cases w <;> [exact .inl ⟨0, rfl⟩; exact .inr (.inl rfl)]
  | rsv4 w rest d => cases w <;> [exact .inl ⟨0, rfl⟩; exact .inr (.inl rfl)]
  | wrStatus | wrResult | wrHum | wrTemp | wrLastpoll | wrFrameHi | wrFrameCk | wrTimer | wrPhase
  | wrRsvdB | wrRsvdC | wrRsvdD | wrRsvdE | wrRsvdF => exact .inr (.inl rfl)
  | _ => exact .inl ⟨_, rfl⟩

/-- A step whose next event is listed delivers that event. -/
theorem step_listed (s : State) (e : Event) (rest : List Event) (h : s.inbox = e :: rest) :
    step s = deliver e { s with inbox := rest } := by
  rw [step, nextEvent_listed s e rest h, takeEvent_listed s e rest h]

end Sys2Proof.Machine
end

