-- ==== Sys2Proof/Laws/PerInstr.lean ====
section
/-! SUPPORT. The family RowMatch: the word of an access lies in its row of the opcode table (30_encoding.md R83, R90). -/

namespace Sys2Proof.Laws.RowMatch

/-- The encoded word has the bits that the access's row of the opcode table fixes. -/
abbrev Statement (i : Instr) : Prop := i.row.matches (encode i).haw = true

theorem rdStatus : Statement .rdStatus := by decide

theorem rdResult : Statement .rdResult := by decide

theorem rdHum : Statement .rdHum := by decide

theorem rdTemp : Statement .rdTemp := by decide

theorem rdCfg : Statement .rdCfg := by decide

theorem rdCmd : Statement .rdCmd := by decide

theorem rdLastpoll : Statement .rdLastpoll := by decide

theorem rdFrameHi : Statement .rdFrameHi := by decide

theorem rdFrameCk : Statement .rdFrameCk := by decide

theorem rdTimer : Statement .rdTimer := by decide

theorem rdPhase : Statement .rdPhase := by decide

theorem rdRsvdB : Statement .rdRsvdB := by decide

theorem rdRsvdC : Statement .rdRsvdC := by decide

theorem rdRsvdD : Statement .rdRsvdD := by decide

theorem rdRsvdE : Statement .rdRsvdE := by decide

theorem rdRsvdF : Statement .rdRsvdF := by decide

theorem wrStatus (d : Word) : Statement (.wrStatus d) := by
  simp [Statement, Instr.row, RowPattern.matches, encode]

theorem wrResult (d : Word) : Statement (.wrResult d) := by
  simp [Statement, Instr.row, RowPattern.matches, encode]

theorem wrHum (d : Word) : Statement (.wrHum d) := by
  simp [Statement, Instr.row, RowPattern.matches, encode]

theorem wrTemp (d : Word) : Statement (.wrTemp d) := by
  simp [Statement, Instr.row, RowPattern.matches, encode]

theorem wrCfg (d : Word) : Statement (.wrCfg d) := by
  simp [Statement, Instr.row, RowPattern.matches, encode]

theorem wrCmd (d : Word) : Statement (.wrCmd d) := by
  simp [Statement, Instr.row, RowPattern.matches, encode]

theorem wrLastpoll (d : Word) : Statement (.wrLastpoll d) := by
  simp [Statement, Instr.row, RowPattern.matches, encode]

theorem wrFrameHi (d : Word) : Statement (.wrFrameHi d) := by
  simp [Statement, Instr.row, RowPattern.matches, encode]

theorem wrFrameCk (d : Word) : Statement (.wrFrameCk d) := by
  simp [Statement, Instr.row, RowPattern.matches, encode]

theorem wrTimer (d : Word) : Statement (.wrTimer d) := by
  simp [Statement, Instr.row, RowPattern.matches, encode]

theorem wrPhase (d : Word) : Statement (.wrPhase d) := by
  simp [Statement, Instr.row, RowPattern.matches, encode]

theorem wrRsvdB (d : Word) : Statement (.wrRsvdB d) := by
  simp [Statement, Instr.row, RowPattern.matches, encode]

theorem wrRsvdC (d : Word) : Statement (.wrRsvdC d) := by
  simp [Statement, Instr.row, RowPattern.matches, encode]

theorem wrRsvdD (d : Word) : Statement (.wrRsvdD d) := by
  simp [Statement, Instr.row, RowPattern.matches, encode]

theorem wrRsvdE (d : Word) : Statement (.wrRsvdE d) := by
  simp [Statement, Instr.row, RowPattern.matches, encode]

theorem wrRsvdF (d : Word) : Statement (.wrRsvdF d) := by
  simp [Statement, Instr.row, RowPattern.matches, encode]

theorem rsv6 (w : Bool) (rest : BitVec 6) (d : Word) : Statement (.rsv6 w rest d) := by
  simp only [Statement, Instr.row, RowPattern.matches, encode]
  revert w rest
  decide

theorem rsv5 (w : Bool) (rest : BitVec 5) (d : Word) : Statement (.rsv5 w rest d) := by
  simp only [Statement, Instr.row, RowPattern.matches, encode]
  revert w rest
  decide

theorem rsv4 (w : Bool) (rest : BitVec 4) (d : Word) : Statement (.rsv4 w rest d) := by
  simp only [Statement, Instr.row, RowPattern.matches, encode]
  revert w rest
  decide

end Sys2Proof.Laws.RowMatch
end

