-- ==== Sys2Proof/Laws/Tick.lean ====
section
/-! SUPPORT. Everything one decoder tick can do, said once (41_handshake.md R120 to R127, 42_bit_decode.md R150 to R154). -/

namespace Sys2Proof.Machine

theorem Block.elapsed_timerAdvance (b : Block) : b.timerAdvance.elapsed = b.tc.toNat := rfl

/-! The tick in each phase is that phase's action on the block after the timer's advance (R120). -/

section phases

variable {s : Level} {b : Block}

theorem Block.tick_idle (h : b.phase = .idle) : b.tick params s = .ok b.timerAdvance := by
  simp only [Block.tick, timerAdvance_phase, h]; rfl

theorem Block.tick_reqLow (h : b.phase = .reqLow) : b.tick params s = .ok (b.timerAdvance.reqLowTick params) := by
  simp only [Block.tick, timerAdvance_phase, h]

theorem Block.tick_awaitAck (h : b.phase = .awaitAck) :
    b.tick params s = b.timerAdvance.awaitAckTick params s := by
  simp only [Block.tick, timerAdvance_phase, h]

theorem Block.tick_ackLow (h : b.phase = .ackLow) : b.tick params s = b.timerAdvance.ackLowTick params s := by
  simp only [Block.tick, timerAdvance_phase, h]

theorem Block.tick_ackHigh (h : b.phase = .ackHigh) :
    b.tick params s = b.timerAdvance.ackHighTick params s := by
  simp only [Block.tick, timerAdvance_phase, h]

theorem Block.tick_bitSep (h : b.phase = .bitSep) : b.tick params s = b.timerAdvance.bitSepTick params s := by
  simp only [Block.tick, timerAdvance_phase, h]

theorem Block.tick_bitHigh (h : b.phase = .bitHigh) :
    b.tick params s = b.timerAdvance.bitHighTick params s := by
  simp only [Block.tick, timerAdvance_phase, h]

end phases

/-- The ways one tick can go, each with its condition and the block after it. -/
inductive TickStep (s : Level) (b : Block) : Block → Prop where
  | idle (h : b.phase = .idle) : TickStep s b b.timerAdvance
  | hold (h : b.phase = .reqLow) (hn : (b.holdCnt + 1).toNat ≠ 1000) :
      TickStep s b { b.timerAdvance with holdCnt := b.holdCnt + 1 }
  | arm (h : b.phase = .reqLow) (hn : (b.holdCnt + 1).toNat = 1000) :
      TickStep s b (Block.releaseAndArm { b.timerAdvance with holdCnt := b.holdCnt + 1 })
  | stay (h : b.phase.timed = true) (hs : s = b.phase.awaited) (ht : b.tc.toNat ≤ 300) :
      TickStep s b b.timerAdvance
  | timeout (h : b.phase.timed = true) (hs : s = b.phase.awaited) (ht : 300 < b.tc.toNat) :
      TickStep s b (b.timerAdvance.endTransaction b.phase.timeoutCode true)
  | ackLow (h : b.phase = .awaitAck) (hs : s = low) (ht : 10 ≤ b.tc.toNat ∧ b.tc.toNat ≤ 200) :
      TickStep s b (b.timerAdvance.enterTimed .ackLow)
  | ackHigh (h : b.phase = .ackLow) (hs : s = high) (ht : 70 ≤ b.tc.toNat ∧ b.tc.toNat ≤ 110) :
      TickStep s b (b.timerAdvance.enterTimed .ackHigh)
  | bitSep (h : b.phase = .ackHigh) (hs : s = low) (ht : 70 ≤ b.tc.toNat ∧ b.tc.toNat ≤ 100) :
      TickStep s b (b.timerAdvance.enterTimed .bitSep)
  | bitHigh (h : b.phase = .bitSep) (hs : s = high) (ht : 40 ≤ b.tc.toNat ∧ b.tc.toNat ≤ 70) :
      TickStep s b (b.timerAdvance.enterTimed .bitHigh)
  | ackFailed (h : b.phase = .awaitAck ∧ ¬(10 ≤ b.tc.toNat ∧ b.tc.toNat ≤ 200) ∨
        b.phase = .ackLow ∧ ¬(70 ≤ b.tc.toNat ∧ b.tc.toNat ≤ 110) ∨
        b.phase = .ackHigh ∧ ¬(70 ≤ b.tc.toNat ∧ b.tc.toNat ≤ 100)) (hs : s ≠ b.phase.awaited) :
      TickStep s b (b.timerAdvance.endTransaction .responseError true)
  | sepFailed (h : b.phase = .bitSep) (hs : s = high) (ht : ¬(40 ≤ b.tc.toNat ∧ b.tc.toNat ≤ 70)) :
      TickStep s b (b.timerAdvance.endTransaction .readBitError b.cfgSepErrStop)
  | pulseFailed (h : b.phase = .bitHigh) (hs : s = low) (ht : classify params b.tc.toNat = none) :
      TickStep s b (b.timerAdvance.endTransaction .readBitError true)
  | nextBit (h : b.phase = .bitHigh) (hs : s = low) (bit : Bool) (ht : classify params b.tc.toNat = some bit)
      (hk : b.bitIdx.toNat < 39) (f : Frame) (hf : appendBit b.bitIdx bit b.frame = .ok f) :
      TickStep s b (Block.enterTimed .bitSep { b.timerAdvance with frame := f, bitIdx := b.bitIdx + 1 })
  | lastBit (h : b.phase = .bitHigh) (hs : s = low) (bit : Bool) (ht : classify params b.tc.toNat = some bit)
      (hk : b.bitIdx.toNat = 39) (f : Frame) (hf : appendBit b.bitIdx bit b.frame = .ok f) :
      TickStep s b (Block.finalize params { b.timerAdvance with frame := f, bitIdx := b.bitIdx + 1 })

theorem TickStep.timeout_in {s : Level} {b : Block} {p : Phase} (h : b.phase = p) (hp : p.timed = true)
    (hs : s = p.awaited) (ht : 300 < b.tc.toNat) :
    TickStep s b (b.timerAdvance.endTransaction p.timeoutCode true) := by
  subst h
  exact .timeout hp hs ht

theorem TickStep.stay_in {s : Level} {b : Block} {p : Phase} (h : b.phase = p) (hp : p.timed = true)
    (hs : s = p.awaited) (ht : b.tc.toNat ≤ 300) : TickStep s b b.timerAdvance := by
  subst h
  exact .stay hp hs ht

/-- The outcome of a tick: one of the ways, or the refusal of a bit beyond the frame (log entry 7). -/
theorem Block.tick_cases (s : Level) (b : Block) :
    (∃ c, b.tick params s = .ok c ∧ TickStep s b c) ∨
    (b.phase = .bitHigh ∧ 40 ≤ b.bitIdx.toNat ∧ b.tick params s = .error .bitIdxOutOfFrame) := by
  cases h : b.phase with
  | idle =>
    exact .inl ⟨_, Block.tick_idle h, .idle h⟩
  | reqLow =>
    left
    by_cases hn : (b.holdCnt + 1).toNat = 1000
    · exact ⟨_, (Block.tick_reqLow h).trans (congrArg _ (if_pos hn)), .arm h hn⟩
    · exact ⟨_, (Block.tick_reqLow h).trans (congrArg _ (if_neg hn)), .hold h hn⟩
  | awaitAck =>
    rcases Block.wait_cases (Block.tick_awaitAck h).symm with ⟨hs, ht, e⟩ | ⟨hs, ht, e⟩ | ⟨hs, u, hu, e⟩ | ⟨hs, hu, e⟩
    · exact .inl ⟨_, e, .timeout_in h rfl hs ht⟩
    · exact .inl ⟨_, e, .stay_in h rfl hs ht⟩
    · exact .inl ⟨_, e, .ackLow h (by simpa using hs) ((closedWindow_eq_some_iff ..).mp hu)⟩
    · exact .inl ⟨_, e, .ackFailed (.inl ⟨h, closedWindow_none hu⟩)
        (by simpa [h, Phase.awaited] using hs)⟩
  | ackLow =>
    rcases Block.wait_cases (Block.tick_ackLow h).symm with ⟨hs, ht, e⟩ | ⟨hs, ht, e⟩ | ⟨hs, u, hu, e⟩ | ⟨hs, hu, e⟩
    · exact .inl ⟨_, e, .timeout_in h rfl hs ht⟩
    · exact .inl ⟨_, e, .stay_in h rfl hs ht⟩
    · exact .inl ⟨_, e, .ackHigh h (by simpa using hs) ((closedWindow_eq_some_iff ..).mp hu)⟩
    · exact .inl ⟨_, e, .ackFailed (.inr (.inl ⟨h, closedWindow_none hu⟩))
        (by simpa [h, Phase.awaited] using hs)⟩
  | ackHigh =>
    rcases Block.wait_cases (Block.tick_ackHigh h).symm with ⟨hs, ht, e⟩ | ⟨hs, ht, e⟩ | ⟨hs, u, hu, e⟩ | ⟨hs, hu, e⟩
    · exact .inl ⟨_, e, .timeout_in h rfl hs ht⟩
    · exact .inl ⟨_, e, .stay_in h rfl hs ht⟩
    · exact .inl ⟨_, e, .bitSep h (by simpa using hs) ((closedWindow_eq_some_iff ..).mp hu)⟩
    · exact .inl ⟨_, e, .ackFailed (.inr (.inr ⟨h, closedWindow_none hu⟩))
        (by simpa [h, Phase.awaited] using hs)⟩
  | bitSep =>
    rcases Block.wait_cases (Block.tick_bitSep h).symm with ⟨hs, ht, e⟩ | ⟨hs, ht, e⟩ | ⟨hs, u, hu, e⟩ | ⟨hs, hu, e⟩
    · exact .inl ⟨_, e, .timeout_in h rfl hs ht⟩
    · exact .inl ⟨_, e, .stay_in h rfl hs ht⟩
    · exact .inl ⟨_, e, .bitHigh h (by simpa using hs) ((closedWindow_eq_some_iff ..).mp hu)⟩
    · exact .inl ⟨_, e, .sepFailed h (by simpa using hs) (closedWindow_none hu)⟩
  | bitHigh =>
    rcases Block.wait_cases (Block.tick_bitHigh h).symm with ⟨hs, ht, e⟩ | ⟨hs, ht, e⟩ | ⟨hs, bit, hu, e⟩ | ⟨hs, hu, e⟩
    · exact .inl ⟨_, e, .timeout_in h rfl hs ht⟩
    · exact .inl ⟨_, e, .stay_in h rfl hs ht⟩
    · have hl : s = low := by simpa using hs
      by_cases hk : b.bitIdx.toNat < 40
      · obtain ⟨f, hf, ⟨hk', e'⟩ | ⟨hk', e'⟩⟩ := Block.takeBit_cases b.timerAdvance bit hk
        · exact .inl ⟨_, e.trans e', .lastBit h hl bit hu hk' f hf⟩
        · exact .inl ⟨_, e.trans e', .nextBit h hl bit hu hk' f hf⟩
      · refine .inr ⟨rfl, by omega, e.trans ?_⟩
        simp only [Block.takeBit, timerAdvance_bitIdx, timerAdvance_frame]
        rw [appendBit_out _ _ _ (by omega)]
    · exact .inl ⟨_, e, .pulseFailed h (by simpa using hs) hu⟩

/-- A tick that answers a block went one of the ways of `TickStep`. -/
theorem Block.tick_ok {s : Level} {b c : Block} (h : b.tick params s = .ok c) : TickStep s b c := by
  rcases Block.tick_cases s b with ⟨c', e, hc⟩ | ⟨_, _, e⟩
  · rw [h] at e
    injection e with e
    exact e ▸ hc
  · rw [h] at e
    cases e

/-- Inside the frame a tick is never refused. -/
theorem Block.tick_isOk (s : Level) (b : Block) (h : b.phase = .bitHigh → b.bitIdx.toNat < 40) :
    ∃ c, b.tick params s = .ok c ∧ TickStep s b c := by
  rcases Block.tick_cases s b with hc | ⟨hp, hk, _⟩
  · exact hc
  · exact absurd (h hp) (by omega)

end Sys2Proof.Machine
end

