-- ==== Sys2Proof/Laws/Step.lean ====
section
/-! SUPPORT. Everything one step can do to the block and to rst, said once (20_memory.md R69). -/

namespace Sys2Proof.Machine

/-- The ways a step that answers a next state can go, by its event. -/
theorem step_next_cases {s t : State} (h : step s = .next t) :
    (∃ v, nextEvent s = .tick v ∧ t.rst = s.rst ∧
      ((s.rst = true ∧ t.block = s.block) ∨ (s.rst = false ∧ s.block.tick params v = .ok t.block))) ∨
    (∃ haw d now, nextEvent s = .access haw d now ∧ t.rst = s.rst ∧
      (t.block = s.block ∨
        (∃ x, decode ⟨haw, d⟩ = .wrCfg x ∧ s.rst = false ∧ t.block = s.block.writeCfg x) ∨
        (∃ x, decode ⟨haw, d⟩ = .wrCmd x ∧ s.rst = false ∧ wdataPoll x = true ∧
          t.block = s.block.poll params now))) ∨
    (nextEvent s = .rstAssert ∧ t.rst = true ∧ t.block = Block.reset) ∨
    (nextEvent s = .rstRelease ∧ t.rst = false ∧ t.block = s.block) := by
  unfold step at h
  cases he : nextEvent s with
  | tick v =>
    rw [he] at h
    left
    rcases tickEvent_cases v (takeEvent s) with ⟨hr, e⟩ | ⟨hr, b, hb, e⟩ | ⟨_, r, _, e⟩
    all_goals
      have ht := (show tickEvent v (takeEvent s) = _ from h).symm.trans e
    · cases ht
      exact ⟨v, rfl, takeEvent_rst s, .inl ⟨by simpa using hr, takeEvent_block s⟩⟩
    · cases ht
      exact ⟨v, rfl, takeEvent_rst s, .inr ⟨by simpa using hr, by simpa using hb⟩⟩
    · cases ht
  | access haw d now =>
    rw [he] at h
    right; left
    refine ⟨haw, d, now, rfl, ?_⟩
    have h' : exec (decode ⟨haw, d⟩) (presentNow now (takeEvent s)) = .next t := h
    rcases exec_cases (decode ⟨haw, d⟩) (presentNow now (takeEvent s)) with
      ⟨w, e⟩ | e | ⟨x, hx, hr, e⟩ | ⟨x, hx, hr, e⟩
    all_goals
      have ht := h'.symm.trans e
      cases ht
    · exact ⟨takeEvent_rst s, .inl (takeEvent_block s)⟩
    · exact ⟨takeEvent_rst s, .inl (takeEvent_block s)⟩
    · exact ⟨takeEvent_rst s, .inr (.inl ⟨x, hx, by simpa using hr, by simp⟩)⟩
    · refine ⟨takeEvent_rst s, ?_⟩
      cases hp : wdataPoll x
      · exact .inl (by simp)
      · exact .inr (.inr ⟨x, hx, by simpa using hr, hp, by simp⟩)
  | rstAssert =>
    rw [he] at h
    cases h
    exact .inr (.inr (.inl ⟨rfl, rfl, rfl⟩))
  | rstRelease =>
    rw [he] at h
    cases h
    exact .inr (.inr (.inr ⟨rfl, rfl, takeEvent_block s⟩))

end Sys2Proof.Machine
end

