-- ==== Sys2Proof/Laws/Run.lean ====
section
/-! SUPPORT. Runs of ticks, and the ticks of a timed phase that stays or times out (41_handshake.md R124, R128). -/

namespace Sys2Proof.Machine

theorem runTicks_append (xs ys : List Level) (b : Block) :
    runTicks (xs ++ ys) b = match runTicks xs b with
      | .ok c => runTicks ys c
      | .error r => .error r := by
  induction xs generalizing b with
  | nil => rfl
  | cons x xs ih =>
    simp only [List.cons_append, runTicks]
    cases b.tick params x with
    | ok c => exact ih c
    | error r => rfl

theorem runTicks_append_ok {xs ys : List Level} {b c : Block} (h : runTicks xs b = .ok c) :
    runTicks (xs ++ ys) b = runTicks ys c := by
  rw [runTicks_append, h]

theorem runTicks_cons_ok {x : Level} {xs : List Level} {b c : Block} (h : b.tick params x = .ok c) :
    runTicks (x :: xs) b = runTicks xs c := by
  simp only [runTicks, h]

/-- A run that takes the n-th block of a sequence to the next one, `n` times over. -/
theorem runTicks_repeat {xs : List Level} {f : Nat → Block} {n : Nat} (h : ∀ k, k < n → runTicks xs (f k) = .ok (f (k + 1))) :
    runTicks (List.replicate n xs).flatten (f 0) = .ok (f n) := by
  induction n with
  | zero => rfl
  | succ n ih =>
    rw [List.replicate_succ', List.flatten_append, runTicks_append_ok (ih fun k hk => h k (by omega))]
    simpa using h n (by omega)

/-- Ticks do not leave IDLE (41_handshake.md R121). -/
theorem runTicks_idle {xs : List Level} {b c : Block} (h : runTicks xs b = .ok c) (hb : b.phase = .idle) : c.phase = .idle := by
  induction xs generalizing b with
  | nil => cases h; exact hb
  | cons x xs ih =>
    rw [runTicks_cons_ok (Block.tick_idle hb)] at h
    exact ih h hb

/-- A run that is busy before its last tick and idle after it ends at that tick, whatever follows. -/
theorem EndsAt.of_last_tick {xs rest : List Level} {v : Level} {b c d : Block} (hc : runTicks xs b = .ok c)
    (busy : c.phase ≠ .idle) (hd : c.tick params v = .ok d) (idle : d.phase = .idle) :
    EndsAt (xs ++ v :: rest) b (xs.length + 1) d where
  run := by
    rw [List.take_length_add_append, runTicks_append_ok hc]
    exact runTicks_cons_ok hd
  idle := idle
  first := by
    intro m e hm he hidle
    rw [List.take_append_of_le_length (by omega)] at he
    rw [← List.take_append_drop m xs, runTicks_append_ok he] at hc
    exact busy (runTicks_idle hc hidle)

theorem Phase.timed_cases {p : Phase} (h : p.timed = true) :
    p = .awaitAck ∨ p = .ackLow ∨ p = .ackHigh ∨ p = .bitSep ∨ p = .bitHigh := by
  cases p <;> simp_all [Phase.timed]

/-- A tick that stays in its timed phase changes the timer's count only. -/
theorem Block.tick_stay {b : Block} (h : b.phase.timed = true) (ht : b.tc.toNat ≤ 300) :
    b.tick params b.phase.awaited = .ok b.timerAdvance := by
  rcases Phase.timed_cases h with hp | hp | hp | hp | hp
  · rw [Block.tick_awaitAck hp, hp]; exact Block.wait_stay rfl ht
  · rw [Block.tick_ackLow hp, hp]; exact Block.wait_stay rfl ht
  · rw [Block.tick_ackHigh hp, hp]; exact Block.wait_stay rfl ht
  · rw [Block.tick_bitSep hp, hp]; exact Block.wait_stay rfl ht
  · rw [Block.tick_bitHigh hp, hp]; exact Block.wait_stay rfl ht

/-- A tick at which a timed phase times out. -/
theorem Block.tick_timeout {b : Block} (h : b.phase.timed = true) (ht : 300 < b.tc.toNat) :
    b.tick params b.phase.awaited = .ok (b.timerAdvance.endTransaction b.phase.timeoutCode true) := by
  rcases Phase.timed_cases h with hp | hp | hp | hp | hp
  · rw [Block.tick_awaitAck hp, hp]; exact Block.wait_timeout rfl ht
  · rw [Block.tick_ackLow hp, hp]; exact Block.wait_timeout rfl ht
  · rw [Block.tick_ackHigh hp, hp]; exact Block.wait_timeout rfl ht
  · rw [Block.tick_bitSep hp, hp]; exact Block.wait_timeout rfl ht
  · rw [Block.tick_bitHigh hp, hp]; exact Block.wait_timeout rfl ht

end Sys2Proof.Machine
end

