-- ==== Sys2Proof/Tests/Slice0.lean ====
section
/-! SUPPORT. Tests, with expected results from spec/ (the file and section of each stands beside it), and a witness for the hypotheses of every statement that has some. -/

namespace Sys2Proof.Tests

open Sys2Proof Sys2Proof.Machine

/-- The next state of a step that has one. -/
def after (o : Host.Outcome State Fault Refusal) : Option State :=
  match o with
  | .next s => some s
  | .fault _ => none
  | .refused _ => none

/-- What a read leaves on rdata. -/
def answer (o : Host.Outcome State Fault Refusal) : Option Word := (after o).map State.rdata

/-- The block that a tick leaves. -/
def ticked (e : Except Refusal Block) : Option Block :=
  match e with
  | .ok b => some b
  | .error _ => none

/-- The state after reset with this block. -/
def holding (b : Block) : State := { State.reset with block := b }

/-- A block that waits in a timed phase with this timer count. -/
def waiting (p : Phase) (cnt : TmrCount) : Block :=
  { Block.reset with phase := p, lineOe := false, tmrRun := true, tmrCnt := cnt, holdCnt := 1000 }

/-- Idle, with a recorded timestamp and this wall-clock value on now_s. -/
def gated (last now : Seconds) : State := { holding { Block.reset with lastValid := true, lastPoll := last } with nowS := now }

/-- A state in which these events come next. -/
def facing (events : List Event) : State := { State.reset with inbox := events }

/-! ## WellFormed: each check refuses an ill-formed term -/

theorem test_rsv6_read_with_wdata_refused : (Instr.rsv6 false 0b000101#6 1).wellFormed = false := by decide
theorem test_rsv5_read_with_wdata_refused : (Instr.rsv5 false 0b00101#5 1).wellFormed = false := by decide
theorem test_rsv4_read_with_wdata_refused : (Instr.rsv4 false 0b0101#4 0x80000000).wellFormed = false := by decide

/-! ## Decoding: every constructor from a word written out as W, RSV, REG (30_encoding.md R80, R83, R90) -/

theorem test_decode_rdStatus : decode ⟨0b0_000_0000#8, 0⟩ = .rdStatus := by rfl
theorem test_decode_rdResult : decode ⟨0b0_000_0001#8, 0⟩ = .rdResult := by rfl
theorem test_decode_rdHum : decode ⟨0b0_000_0010#8, 0⟩ = .rdHum := by rfl
theorem test_decode_rdTemp : decode ⟨0b0_000_0011#8, 0⟩ = .rdTemp := by rfl
theorem test_decode_rdCfg : decode ⟨0b0_000_0100#8, 0⟩ = .rdCfg := by rfl
theorem test_decode_rdCmd : decode ⟨0b0_000_0101#8, 0⟩ = .rdCmd := by rfl
theorem test_decode_rdLastpoll : decode ⟨0b0_000_0110#8, 0⟩ = .rdLastpoll := by rfl
theorem test_decode_rdFrameHi : decode ⟨0b0_000_0111#8, 0⟩ = .rdFrameHi := by rfl
theorem test_decode_rdFrameCk : decode ⟨0b0_000_1000#8, 0⟩ = .rdFrameCk := by rfl
theorem test_decode_rdTimer : decode ⟨0b0_000_1001#8, 0⟩ = .rdTimer := by rfl
theorem test_decode_rdPhase : decode ⟨0b0_000_1010#8, 0⟩ = .rdPhase := by rfl
theorem test_decode_rdRsvdB : decode ⟨0b0_000_1011#8, 0⟩ = .rdRsvdB := by rfl
theorem test_decode_rdRsvdC : decode ⟨0b0_000_1100#8, 0⟩ = .rdRsvdC := by rfl
theorem test_decode_rdRsvdD : decode ⟨0b0_000_1101#8, 0⟩ = .rdRsvdD := by rfl
theorem test_decode_rdRsvdE : decode ⟨0b0_000_1110#8, 0⟩ = .rdRsvdE := by rfl
theorem test_decode_rdRsvdF : decode ⟨0b0_000_1111#8, 0⟩ = .rdRsvdF := by rfl
theorem test_decode_wrStatus : decode ⟨0b1_000_0000#8, 0x60⟩ = .wrStatus 0x60 := by rfl
theorem test_decode_wrResult : decode ⟨0b1_000_0001#8, 7⟩ = .wrResult 7 := by rfl
theorem test_decode_wrHum : decode ⟨0b1_000_0010#8, 0x1234⟩ = .wrHum 0x1234 := by rfl
theorem test_decode_wrTemp : decode ⟨0b1_000_0011#8, 0xFFFFFFFF⟩ = .wrTemp 0xFFFFFFFF := by rfl
theorem test_decode_wrCfg : decode ⟨0b1_000_0100#8, 2⟩ = .wrCfg 2 := by rfl
theorem test_decode_wrCmd : decode ⟨0b1_000_0101#8, 1⟩ = .wrCmd 1 := by rfl
theorem test_decode_wrLastpoll : decode ⟨0b1_000_0110#8, 1000⟩ = .wrLastpoll 1000 := by rfl
theorem test_decode_wrFrameHi : decode ⟨0b1_000_0111#8, 5⟩ = .wrFrameHi 5 := by rfl
theorem test_decode_wrFrameCk : decode ⟨0b1_000_1000#8, 6⟩ = .wrFrameCk 6 := by rfl
theorem test_decode_wrTimer : decode ⟨0b1_000_1001#8, 7⟩ = .wrTimer 7 := by rfl
theorem test_decode_wrPhase : decode ⟨0b1_000_1010#8, 8⟩ = .wrPhase 8 := by rfl
theorem test_decode_wrRsvdB : decode ⟨0b1_000_1011#8, 9⟩ = .wrRsvdB 9 := by rfl
theorem test_decode_wrRsvdC : decode ⟨0b1_000_1100#8, 10⟩ = .wrRsvdC 10 := by rfl
theorem test_decode_wrRsvdD : decode ⟨0b1_000_1101#8, 11⟩ = .wrRsvdD 11 := by rfl
theorem test_decode_wrRsvdE : decode ⟨0b1_000_1110#8, 12⟩ = .wrRsvdE 12 := by rfl
theorem test_decode_wrRsvdF : decode ⟨0b1_000_1111#8, 13⟩ = .wrRsvdF 13 := by rfl
theorem test_decode_rsv6 : decode ⟨0b1_110_0101#8, 1⟩ = .rsv6 true 0b10_0101#6 1 := by rfl
theorem test_decode_rsv5 : decode ⟨0b0_011_0101#8, 1⟩ = .rsv5 false 0b1_0101#5 0 := by rfl
theorem test_decode_rsv4 : decode ⟨0b1_001_0101#8, 1⟩ = .rsv4 true 0b0101#4 1 := by rfl

/-- The table's numbering: haw in bits 7:0, then wdata (log entry 11). -/
theorem test_table_word_of_a_poll : decodeTableWord 8 0x85 = some (.wrCmd 0) := by rfl
theorem test_table_word_with_wdata : decodeTableWord 40 0x0000000185 = some (.wrCmd 1) := by rfl

/-! ## Host reads (95_test_vectors.md sections 2.6, 2.7, L1.7) -/

theorem test_status_after_reset : answer (exec .rdStatus State.reset) = some 0x00000060 := by decide
theorem test_result_after_rejection :
    answer (exec .rdResult (holding { Block.reset with result := .pollingIntervalError })) = some 1 := by decide
theorem test_hum_404 : answer (exec .rdHum (holding { Block.reset with hum := 404 })) = some 0x00000194 := by decide
theorem test_hum_is_unsigned : answer (exec .rdHum (holding { Block.reset with hum := 0xFFFF })) = some 0x0000FFFF := by
  decide
theorem test_temp_minus_101 : answer (exec .rdTemp (holding { Block.reset with temp := 0 - 101 })) = some 0xFFFFFF9B := by
  decide
theorem test_temp_200 : answer (exec .rdTemp (holding { Block.reset with temp := 200 })) = some 0x000000C8 := by decide
theorem test_cfg_shows_sep_err_stop :
    answer (exec .rdCfg (holding { Block.reset with cfgSepErrStop := true })) = some 2 := by decide
theorem test_cmd_reads_zero : answer (exec .rdCmd (gated 5 5)) = some 0 := by decide
theorem test_lastpoll_1000 : answer (exec .rdLastpoll (gated 1000 0)) = some 0x000003E8 := by decide
theorem test_frame_hi :
    answer (exec .rdFrameHi (holding { Block.reset with frame := #v[0x01, 0x94, 0x00, 0xC8, 0x5D] })) = some 0x019400C8 := by
  decide
theorem test_frame_ck :
    answer (exec .rdFrameCk (holding { Block.reset with frame := #v[0x01, 0x94, 0x00, 0xC8, 0x5D] })) = some 0x0000005D := by
  decide
theorem test_timer_70 : answer (exec .rdTimer (holding { Block.reset with tmrCnt := 70 })) = some 0x00000046 := by decide
theorem test_phase_after_success :
    answer (exec .rdPhase (holding { Block.reset with holdCnt := 1000, bitIdx := 40 })) = some 0x03E82800 := by decide
theorem test_reserved_slot_reads_zero : answer (exec .rdRsvdC (gated 5 5)) = some 0 := by decide
theorem test_reserved_read : answer (exec (decode ⟨0x15, 0⟩) (gated 5 5)) = some 0 := by decide

/-! ## Host writes (95_test_vectors.md sections 2.1, 2.6; program P2) -/

theorem test_cfg_write_keeps_two_bits :
    (after (exec (.wrCfg 0xFFFFFFFF) State.reset)).map (fun s => answer (exec .rdCfg s)) = some (some 3) := by decide
theorem test_cfg_write_one : (after (exec (.wrCfg 1) State.reset)).map (fun s => (s.block.cfgSignSrc, s.block.cfgSepErrStop)) =
    some (true, false) := by decide
theorem test_cfg_write_busy_ignored :
    after (exec (.wrCfg 3) (holding (waiting .bitSep 7))) = some (holding (waiting .bitSep 7)) := by decide
theorem test_hum_write_ignored :
    after (exec (.wrHum 0x1234) (holding { Block.reset with hum := 404 })) = some (holding { Block.reset with hum := 404 }) := by
  decide
theorem test_poll_accepted_at_zero :
    (after (exec (.wrCmd 1) State.reset)).map (fun s => (s.block.statusWord, s.block.phaseWord)) = some (0x21, 0x00000001) := by
  decide
theorem test_poll_needs_bit_zero : after (exec (.wrCmd 0xFFFFFFFE) State.reset) = some State.reset := by decide
theorem test_poll_backward_clock_rejected :
    after (exec (.wrCmd 1) (gated 100 99)) =
      some { gated 100 99 with block := { (gated 100 99).block with result := .pollingIntervalError, polled := true } } := by
  decide
theorem test_poll_one_second_later_rejected :
    (after (exec (.wrCmd 1) (gated 100 101))).map (fun s => s.block.phase) = some .idle := by decide
theorem test_poll_two_seconds_later_accepted :
    (after (exec (.wrCmd 1) (gated 100 102))).map (fun s => s.block.phase) = some .reqLow := by decide
theorem test_gate_does_not_wrap :
    (after (exec (.wrCmd 1) (gated 0xFFFFFFFE 0))).map (fun s => s.block.phase) = some .idle := by decide
theorem test_poll_busy_ignored :
    after (exec (.wrCmd 1) (holding (waiting .awaitAck 3))) = some (holding (waiting .awaitAck 3)) := by decide
theorem test_reserved_poll_has_no_effect : after (exec (decode ⟨0x95, 1⟩) State.reset) = some State.reset := by decide
theorem test_reserved_bit6_has_no_effect : after (exec (decode ⟨0xC5, 1⟩) State.reset) = some State.reset := by decide
theorem test_reserved_bit5_has_no_effect : after (exec (decode ⟨0xA5, 1⟩) State.reset) = some State.reset := by decide

/-- The host's placement of one access runs it as the first event after reset (log entry 2). -/
theorem test_withFetchWord_runs_the_access :
    (after (step (State.reset.withFetchWord 40 0x0000000185))).map (fun s => s.block.phase) = some .reqLow := by decide

/-! ## Ticks (41_handshake.md and 42_bit_decode.md: the rules' own examples and corner cases; 95_test_vectors.md 2.2, 2.3) -/

/-- R121's example. -/
theorem test_idle_tick_counts :
    ticked ({ Block.reset with tmrRun := true, tmrCnt := 39 }.tick params low) =
      some { Block.reset with tmrRun := true, tmrCnt := 40 } := by decide

/-- R122's example. -/
theorem test_request_low_999 :
    (ticked ({ Block.reset with phase := .reqLow, lineOut := low, holdCnt := 998 }.tick params high)).map
      (fun b => (b.holdCnt, b.phase)) = some (999, .reqLow) := by decide

/-- R123's example, from a timer that a quirk left running. -/
theorem test_arm_tick :
    (ticked ({ Block.reset with phase := .reqLow, lineOut := low, holdCnt := 999, tmrRun := true, tmrCnt := 77 }.tick params low)).map
      (fun b => (b.phase, b.tmrCnt, b.tmrRun, b.lineOe)) = some (.awaitAck, 0, true, false) := by decide

theorem test_t1_10_passes :
    (ticked ((waiting .awaitAck 9).tick params low)).map (fun b => (b.phase, b.tmrCnt)) = some (.ackLow, 0) := by decide
theorem test_t1_9_fails :
    (ticked ((waiting .awaitAck 8).tick params low)).map (fun b => (b.result, b.tmrCnt, b.statusWord &&& 0x74)) =
      some (.responseError, 9, 0x70) := by decide
theorem test_t1_transition_beats_timeout :
    (ticked ((waiting .awaitAck 300).tick params low)).map (fun b => b.result) = some .responseError := by decide
theorem test_t1_timeout :
    (ticked ((waiting .awaitAck 300).tick params high)).map (fun b => (b.result, b.tmrCnt, b.phase)) =
      some (.responseTimeout, 301, .idle) := by decide
theorem test_t2_110_passes :
    (ticked ((waiting .ackLow 109).tick params high)).map (fun b => b.phase) = some .ackHigh := by decide
theorem test_t2_111_fails :
    (ticked ((waiting .ackLow 110).tick params high)).map (fun b => b.result) = some .responseError := by decide
theorem test_t3_100_passes :
    (ticked ((waiting .ackHigh 99).tick params low)).map (fun b => b.phase) = some .bitSep := by decide
theorem test_t3_101_fails :
    (ticked ((waiting .ackHigh 100).tick params low)).map (fun b => b.result) = some .responseError := by decide
theorem test_sep_39_leaves_the_timer_running :
    (ticked ((waiting .bitSep 38).tick params high)).map (fun b => (b.result, b.tmrRun, b.tmrCnt)) =
      some (.readBitError, true, 39) := by decide
theorem test_sep_39_stops_the_timer_when_configured :
    (ticked ({ waiting .bitSep 38 with cfgSepErrStop := true }.tick params high)).map (fun b => (b.result, b.tmrRun, b.tmrCnt)) =
      some (.readBitError, false, 39) := by decide
theorem test_sep_timeout_stops_the_timer :
    (ticked ((waiting .bitSep 300).tick params low)).map (fun b => (b.result, b.tmrRun)) = some (.readBitTimeout, false) := by
  decide

/-- R152's example. -/
theorem test_pulse_70_is_a_one :
    (ticked ((waiting .bitHigh 69).tick params low)).map (fun b => (b.frame[0], b.bitIdx, b.phase, b.tmrCnt)) =
      some (0x01, 1, .bitSep, 0) := by decide

/-- A partly filled byte is right-aligned (the note on the p_12 row: 0x94 has reached 1001). -/
theorem test_partial_byte_is_right_aligned :
    (ticked ({ waiting .bitHigh 69 with bitIdx := 11, frame := #v[0x01, 0x04, 0, 0, 0] }.tick params low)).map
      (fun b => b.frame) = some #v[0x01, 0x09, 0, 0, 0] := by decide
theorem test_pulse_35_fails :
    (ticked ((waiting .bitHigh 34).tick params low)).map (fun b => (b.result, b.bitIdx)) = some (.readBitError, 0) := by decide

/-- The last tick of the scenario of L1.7, corrected: the 40th bit completes 0x5D. -/
theorem test_last_bit_success :
    (ticked ({ waiting .bitHigh 69 with bitIdx := 39, frame := #v[0x01, 0x94, 0x00, 0xC8, 0x2E] }.tick params low)).map
      (fun b => (b.statusWord, b.result, b.hum, b.temp, b.timerWord, b.phaseWord)) =
      some (0x7A, .success, 404, 200, 70, 0x03E82800) := by decide

/-- 2.4, the row 02 8A 80 65 72: the reading is unchanged. -/
theorem test_last_bit_checksum_error :
    (ticked ({ waiting .bitHigh 29 with bitIdx := 39, frame := #v[0x02, 0x8A, 0x80, 0x65, 0x39] }.tick params low)).map
      (fun b => (b.frame[4], b.result, b.hum, b.temp, b.rdValid)) = some (0x72, .checksumError, 0, 0, false) := by decide

/-! ## Checksum and conversion (95_test_vectors.md 2.4) -/

theorem test_checksum_5D : checksum params #v[0x01, 0x94, 0x00, 0xC8, 0x5D] = 0x5D := by decide
theorem test_checksum_wraps : checksum params #v[0xFF, 0xFF, 0xFF, 0xFF, 0xFC] = 0xFC := by decide
theorem test_sign_from_humidity_byte : temperature params false #v[0x80, 0x00, 0x00, 0x0A, 0x8A] = 0 - 10 := by decide
theorem test_sign_from_temperature_byte : temperature params true #v[0x02, 0x8A, 0x80, 0x65, 0x71] = 0 - 101 := by decide
theorem test_sign_byte_ignored_by_reference : temperature params false #v[0x02, 0x8A, 0x80, 0x65, 0x71] = 101 := by decide
theorem test_negative_zero : temperature params true #v[0x80, 0x00, 0x80, 0x00, 0x00] = 0 := by decide
theorem test_most_negative : temperature params true #v[0x00, 0x00, 0xFF, 0xFF, 0xFE] = 0 - 32767 := by decide

/-! ## Reset (95_test_vectors.md 2.7) -/

theorem test_reset_in_mid_transaction :
    (after (step { holding { waiting .bitSep 20 with bitIdx := 20 } with inbox := [.rstAssert] })).map (fun s => (s.block, s.rst)) =
      some (Block.reset, true) := by decide
theorem test_write_while_rst_ignored :
    after (exec (.wrCfg 3) { State.reset with rst := true }) = some { State.reset with rst := true } := by decide

/-! ## The line's function (95_test_vectors.md sections 1 and 2; R272) -/

/-- Std(F) of section 0. -/
def stdLine (f : List Nat) : Line :=
  { t1 := 15, t2 := 80, t3 := 80,
    cells := f.flatMap fun b => [7, 6, 5, 4, 3, 2, 1, 0].map fun j => (50, if b.testBit j then 70 else 30) }

theorem test_line_success :
    (((stdLine [0x01, 0x94, 0x00, 0xC8, 0x5D]).ending false).code, ((stdLine [0x01, 0x94, 0x00, 0xC8, 0x5D]).ending false).ticks) =
      (.success, 3855) := by decide
theorem test_line_printed_checksum :
    (((stdLine [0x01, 0x94, 0x00, 0xC8, 0xC5]).ending false).code, ((stdLine [0x01, 0x94, 0x00, 0xC8, 0xC5]).ending false).ticks) =
      (.checksumError, 3815) := by decide
theorem test_line_short_separator :
    { stdLine [0x01, 0x94, 0x00, 0xC8, 0x5D] with cells := (39, 30) :: (stdLine [0x01, 0x94, 0x00, 0xC8, 0x5D]).cells.tail }.ending false =
      ⟨.readBitError, 214, [], true⟩ := by decide
theorem test_line_silent : { stdLine [0, 0, 0, 0, 0] with t1 := 302 }.ending false = ⟨.responseTimeout, 301, [], false⟩ := by decide

/-! ## Witnesses: a concrete state and operands for the hypotheses of every statement that has some -/

/-- A block that meets the invariants at their edge: the last bit's pulse, one tick before the timeout. -/
def lastPulse : Block := { waiting .bitHigh 300 with bitIdx := 39, lastValid := true, lastPoll := 5, nowLatch := 9 }

theorem lastPulse_inv : lastPulse.Inv where
  idle_line := by decide
  reqLow_line := by decide
  timed_line := by decide
  bits_left := by decide
  bitIdx_le := by decide
  code_ne_seven := by decide
  unread := by decide
  unrecorded := by decide
  fresh := by decide

/-- A block in the middle of the request, which drives the line. -/
def requesting : Block := { Block.reset with phase := .reqLow, lineOut := low, holdCnt := 999 }

theorem requesting_inv : requesting.Inv where
  idle_line := by decide
  reqLow_line := by decide
  timed_line := by decide
  bits_left := by decide
  bitIdx_le := by decide
  code_ne_seven := by decide
  unread := by decide
  unrecorded := by decide
  fresh := by decide

theorem lastPulse_state_inv (events : List Event) : ({ holding lastPulse with inbox := events } : State).Inv :=
  ⟨lastPulse_inv, by intro h; cases h⟩

/-- The last state before a Success: the 40th pulse is a one and completes the checksum 0x5D. -/
def completing : State :=
  { holding { waiting .bitHigh 69 with bitIdx := 39, frame := #v[0x01, 0x94, 0x00, 0xC8, 0x2E] } with inbox := [.tick low] }

theorem witness_DecodeOfEncodeIsTheAccess :
    (Instr.rsv6 true 63 0xFFFFFFFF).WellFormed ∧ (Instr.rsv4 false 15 0).WellFormed ∧ (Instr.wrCfg 0).WellFormed := by decide
theorem witness_EncodeOfDecodeIsTheWord : hawW 0x80 = true ∧ hawW 0xFF = true := by decide
theorem witness_PseudoInstructionsExpand : (after (exec .rdStatus State.reset)).isSome = true := by decide
theorem witness_StepRunsTheDecodedAccess :
    (facing [.access 0x85 1 7]).inbox = .access 0x85 1 7 :: [] ∧ (Instr.wrCmd 1).WellFormed ∧
      (facing [.access 0x85 1 7]).inbox = .access (encode (.wrCmd 1)).haw (encode (.wrCmd 1)).wdata 7 :: [] := by decide
theorem witness_StepTicksTheDecoder :
    (facing [.tick low]).inbox = .tick low :: [] ∧
    ({ facing [.tick low] with rst := true } : State).rst = true ∧
    (facing [.tick low]).rst = false ∧
    (facing [.tick low]).block.tick params low = .ok Block.reset ∧
    ({ waiting .bitHigh 29 with bitIdx := 40 } : Block).tick params low = .error .bitIdxOutOfFrame :=
  ⟨rfl, rfl, rfl, rfl, rfl⟩
theorem witness_StepDrawsAFreeEvent : State.reset.inbox = [] := by decide
theorem witness_StepNeverStops : (holding lastPulse).Inv := lastPulse_state_inv []
theorem witness_ReadResultShowsTheCode : ∀ c : ResultCode, ∃ s : State, s.block.result = c :=
  fun c => ⟨holding { Block.reset with result := c }, rfl⟩
theorem witness_ReadsChangeNoState :
    Instr.rdRsvdF.isWrite = false ∧ (Instr.rsv6 false 63 0).isWrite = false := by decide
theorem witness_NowLatchIsInvisible : Instr.rdLastpoll.isWrite = false ∧ (Instr.rsv4 false 0 0).isWrite = false := by decide
theorem witness_ReservedAccessesHaveNoEffect :
    ((0x10 : Haw).extractLsb' 4 3 ≠ 0 ∧ (0x10 : Haw).getLsbD 7 = false) ∧
    ((0x7F : Haw).extractLsb' 4 3 ≠ 0 ∧ (0x7F : Haw).getLsbD 7 = false) ∧
    ((0x90 : Haw).extractLsb' 4 3 ≠ 0 ∧ (0x90 : Haw).getLsbD 7 = true) ∧
    ((0xFF : Haw).extractLsb' 4 3 ≠ 0 ∧ (0xFF : Haw).getLsbD 7 = true) := by decide
theorem witness_WriteCfgOnlyWhileIdle :
    (State.reset.rst = false ∧ State.reset.block.phase = .idle) ∧ (holding requesting).block.phase ≠ .idle := by decide
theorem witness_ConfigReadsBackWhatWasWritten : State.reset.rst = false ∧ State.reset.block.phase = .idle := by decide
theorem witness_PollIgnored :
    (0xFFFFFFFE : Word).getLsbD 0 = false ∧ (holding requesting).block.phase ≠ .idle := by decide
theorem witness_PollRejectedByTheGate :
    (gated 100 101).rst = false ∧ (1 : Word).getLsbD 0 = true ∧ (gated 100 101).block.phase = .idle ∧
      (gated 100 101).block.lastValid = true ∧
      ((gated 100 101).nowS.toNat : Int) - ((gated 100 101).block.lastPoll.toNat : Int) < 2 := by decide
theorem witness_PollAcceptedStartsATransaction_first :
    State.reset.rst = false ∧ (0xFFFFFFFF : Word).getLsbD 0 = true ∧ State.reset.block.phase = .idle ∧
      State.reset.block.lastValid = false := by decide
theorem witness_PollAcceptedStartsATransaction_later :
    (gated 100 102).rst = false ∧ (1 : Word).getLsbD 0 = true ∧ (gated 100 102).block.phase = .idle ∧
      ((gated 100 102).nowS.toNat : Int) - ((gated 100 102).block.lastPoll.toNat : Int) ≥ 2 := by decide
theorem witness_GateCornerCases :
    (State.reset.rst = false ∧ State.reset.block = Block.reset) ∧
    ((gated 0xFFFFFFFD 0xFFFFFFFE).block.lastValid = true ∧
      (gated 0xFFFFFFFD 0xFFFFFFFE).block.lastPoll.toNat + 1 = (gated 0xFFFFFFFD 0xFFFFFFFE).nowS.toNat ∧
      (0xFFFFFFFF : Seconds).toNat = (gated 0xFFFFFFFD 0xFFFFFFFE).block.lastPoll.toNat + 2) ∧
    ((gated 0 1).block.lastValid = true ∧ (gated 0 1).block.lastPoll = 0 ∧ (gated 0 1).nowS = 1) ∧
    ((gated 0xFFFFFFFE 0).block.lastValid = true ∧ (gated 0xFFFFFFFE 0).block.lastPoll = 0xFFFFFFFE#32 ∧
      (gated 0xFFFFFFFE 0).block.phase = .idle) := by decide
theorem witness_OnlyTwoWritesChangeTheBlock :
    (Instr.wrCfg 1).isWrite = true ∧
    (after (exec (.wrCfg 1) State.reset)).map (fun t => decide (t.block ≠ State.reset.block)) = some true ∧
    (after (exec (.wrCmd 1) State.reset)).map (fun t => decide (t.block ≠ State.reset.block)) = some true := by decide
theorem witness_ResetSetsEveryElement :
    ({ holding lastPulse with inbox := [.rstAssert] } : State).inbox = .rstAssert :: [] ∧
    ({ facing [.tick high] with rst := true } : State).rst = true ∧
    ({ facing [.tick high] with rst := true } : State).inbox = .tick high :: [] ∧
    (Instr.wrCfg 3).isWrite = true ∧ Instr.rdStatus.isWrite = false ∧
    (Instr.rdHum.isWrite = false ∧ Instr.rdHum ≠ .rdStatus) := by decide
theorem witness_RegistersAfterReset : (holding Block.reset).block = Block.reset := by decide
theorem witness_ResetAbandonsATransaction :
    (1 : Word).getLsbD 0 = true ∧
    ({ holding lastPulse with inbox := [.rstAssert, .rstRelease, .access 0x85 1 0] } : State).inbox =
      .rstAssert :: .rstRelease :: .access 0x85 1 0 :: [] := by decide
theorem witness_IdleTicksOnlyAdvanceTheTimer : ({ Block.reset with tmrRun := true, tmrCnt := 0xFFFF } : Block).phase = .idle := by
  decide
theorem witness_RequestLowTick :
    requesting.phase = .reqLow ∧ (requesting.holdCnt + 1).toNat = 1000 ∧
    (({ requesting with holdCnt := 998 } : Block).holdCnt + 1).toNat ≠ 1000 := by decide
theorem witness_RequestLowLastsAThousandTicks : (List.replicate 1000 low).length = 1000 ∧ 999 < 1000 :=
  ⟨List.length_replicate, by decide⟩
theorem witness_AwaitAckTick :
    (waiting .awaitAck 299).phase = .awaitAck ∧ (waiting .awaitAck 299).tc.toNat ≤ 300 ∧
    300 < (waiting .awaitAck 300).tc.toNat ∧
    (10 ≤ (waiting .awaitAck 9).tc.toNat ∧ (waiting .awaitAck 199).tc.toNat ≤ 200) ∧
    ((waiting .awaitAck 8).tc.toNat < 10 ∧ 200 < (waiting .awaitAck 200).tc.toNat) := by decide
theorem witness_AckLowTick :
    (waiting .ackLow 299).phase = .ackLow ∧ (waiting .ackLow 299).tc.toNat ≤ 300 ∧
    300 < (waiting .ackLow 300).tc.toNat ∧
    (70 ≤ (waiting .ackLow 69).tc.toNat ∧ (waiting .ackLow 109).tc.toNat ≤ 110) ∧
    ((waiting .ackLow 68).tc.toNat < 70 ∧ 110 < (waiting .ackLow 110).tc.toNat) := by decide
theorem witness_AckHighTick :
    (waiting .ackHigh 299).phase = .ackHigh ∧ (waiting .ackHigh 299).tc.toNat ≤ 300 ∧
    300 < (waiting .ackHigh 300).tc.toNat ∧
    (70 ≤ (waiting .ackHigh 69).tc.toNat ∧ (waiting .ackHigh 99).tc.toNat ≤ 100) ∧
    ((waiting .ackHigh 68).tc.toNat < 70 ∧ 100 < (waiting .ackHigh 100).tc.toNat) := by decide
theorem witness_BitSeparatorTick :
    (waiting .bitSep 299).phase = .bitSep ∧ (waiting .bitSep 299).tc.toNat ≤ 300 ∧
    300 < (waiting .bitSep 300).tc.toNat ∧
    (40 ≤ (waiting .bitSep 39).tc.toNat ∧ (waiting .bitSep 69).tc.toNat ≤ 70) ∧
    ((waiting .bitSep 38).tc.toNat < 40 ∧ 70 < (waiting .bitSep 70).tc.toNat) := by decide
theorem witness_BitPulseTick :
    (waiting .bitHigh 299).phase = .bitHigh ∧ (waiting .bitHigh 299).tc.toNat ≤ 300 ∧
    300 < (waiting .bitHigh 300).tc.toNat ∧
    ((waiting .bitHigh 14).tc.toNat ≤ 15 ∧ 35 ≤ (waiting .bitHigh 34).tc.toNat ∧ (waiting .bitHigh 64).tc.toNat ≤ 65 ∧
      80 ≤ (waiting .bitHigh 79).tc.toNat) ∧
    (16 ≤ (waiting .bitHigh 15).tc.toNat ∧ (waiting .bitHigh 33).tc.toNat ≤ 34) ∧
    (66 ≤ (waiting .bitHigh 65).tc.toNat ∧ (waiting .bitHigh 78).tc.toNat ≤ 79) ∧
    (lastPulse.bitIdx.toNat = 39 ∧ lastPulse.bitIdx.toNat / 8 < 5) ∧
    (({ lastPulse with bitIdx := 38 } : Block).bitIdx.toNat < 39 ∧ ({ lastPulse with bitIdx := 38 } : Block).bitIdx.toNat / 8 < 5) := by
  decide
theorem witness_BitBeyondTheFrameIsRefused :
    ({ waiting .bitHigh 15 with bitIdx := 40 } : Block).phase = .bitHigh ∧
    40 ≤ ({ waiting .bitHigh 15 with bitIdx := 40 } : Block).bitIdx.toNat ∧
    (16 ≤ (waiting .bitHigh 15).tc.toNat ∧ (waiting .bitHigh 15).tc.toNat ≤ 34) ∧
    (66 ≤ (waiting .bitHigh 78).tc.toNat ∧ (waiting .bitHigh 78).tc.toNat ≤ 79) := by decide
theorem witness_ClassifyTable :
    (16 ≤ 16 ∧ 34 ≤ 34) ∧ (66 ≤ 66 ∧ 79 ≤ 79) ∧ (15 ≤ 15 ∧ 35 ≤ 65 ∧ 65 ≤ 65 ∧ 80 ≤ 80) := by decide
theorem witness_MeasuredDurationIsTheSegmentLength :
    (waiting .ackLow 0).phase.timed = true ∧ (waiting .ackLow 0).tmrRun = true ∧ (waiting .ackLow 0).tmrCnt = 0 ∧ 300 ≤ 300 := by
  decide
theorem witness_LineBitsLandInOrder : (List.replicate 40 true).length = 40 ∧ 39 < 40 := by decide
theorem witness_FinalizeByChecksum :
    (((#v[0xFF, 0xFF, 0xFF, 0xFF, 0xFC] : Frame)[0].toNat + (#v[0xFF, 0xFF, 0xFF, 0xFF, 0xFC] : Frame)[1].toNat +
      (#v[0xFF, 0xFF, 0xFF, 0xFF, 0xFC] : Frame)[2].toNat + (#v[0xFF, 0xFF, 0xFF, 0xFF, 0xFC] : Frame)[3].toNat) % 256 =
      (#v[0xFF, 0xFF, 0xFF, 0xFF, 0xFC] : Frame)[4].toNat) ∧
    (((#v[0x01, 0x94, 0x00, 0xC8, 0xC5] : Frame)[0].toNat + (#v[0x01, 0x94, 0x00, 0xC8, 0xC5] : Frame)[1].toNat +
      (#v[0x01, 0x94, 0x00, 0xC8, 0xC5] : Frame)[2].toNat + (#v[0x01, 0x94, 0x00, 0xC8, 0xC5] : Frame)[3].toNat) % 256 ≠
      (#v[0x01, 0x94, 0x00, 0xC8, 0xC5] : Frame)[4].toNat) := by decide
theorem witness_ConvertedValues : (temperature params false #v[0x80, 0x00, 0x00, 0x0A, 0x8A]).toInt < 0 := by decide
theorem witness_ChecksumDetectsOneByte :
    (checksum params #v[0x01, 0x94, 0x00, 0xC8, 0x5D] = (#v[0x01, 0x94, 0x00, 0xC8, 0x5D] : Frame)[4] ∧
      (0x95 : Byte) ≠ (#v[0x01, 0x94, 0x00, 0xC8, 0x5D] : Frame)[(1 : Fin 5)]) ∧ (0 : Fin 4) ≠ 3 := by decide
theorem witness_StepKeepsTheInvariants :
    ∃ s t : State, s.Inv ∧ step s = .next t :=
  ⟨{ holding lastPulse with inbox := [.tick high] }, _, lastPulse_state_inv [.tick high], rfl⟩
theorem witness_TemperatureIsNeverTheMinimum :
    completing.block.temp.toInt ≠ -32768 ∧ (after (step completing)).map (fun t => t.block.temp) = some 200 := by decide
theorem witness_PhasesKeepTheirOrder : (after (step completing)).map (fun t => t.block.phase) = some .idle := by decide
theorem witness_OnlyAnAcceptedPollLeavesIdle :
    (facing [.access 0x85 1 7]).block.phase = .idle ∧
    (after (step (facing [.access 0x85 1 7]))).map (fun t => decide (t.block.phase ≠ .idle)) = some true := by decide
theorem witness_ResultsChangeOnlyAtTheEnd :
    nextEvent completing ≠ .rstAssert ∧
    (after (step completing)).map (fun t => (decide (t.block.hum ≠ completing.block.hum),
      decide (t.block.lastValid ≠ completing.block.lastValid), decide (t.block.polled ≠ completing.block.polled))) =
      some (true, true, true) := by decide
theorem witness_FlagsAreClearedOnlyByReset :
    nextEvent ({ holding { lastPulse with polled := true, rdValid := true } with inbox := [.tick high] } : State) ≠ .rstAssert ∧
    (after (step { holding { lastPulse with polled := true, rdValid := true } with inbox := [.tick high] })).isSome = true ∧
    ({ lastPulse with polled := true, rdValid := true } : Block).polled = true ∧
    ({ lastPulse with polled := true, rdValid := true } : Block).rdValid = true ∧ lastPulse.lastValid = true := by decide
theorem witness_ConfigIsFrozenDuringATransaction :
    (nextEvent ({ holding lastPulse with inbox := [.access 0x84 3 0] } : State) ≠ .rstAssert ∧ lastPulse.phase ≠ .idle ∧
      (after (step { holding lastPulse with inbox := [.access 0x84 3 0] })).isSome = true) ∧
    (nextEvent (facing [.tick low]) = .tick low ∧ (after (step (facing [.tick low]))).isSome = true) := by decide
theorem witness_DrivenLineIsNeverSampled : requesting.Inv ∧ requesting.lineOe = true := ⟨requesting_inv, rfl⟩
theorem witness_FrameChangesOnlyByAppendOrAcceptance :
    (nextEvent completing ≠ .rstAssert ∧
      (after (step completing)).map (fun t => (decide (t.block.frame ≠ completing.block.frame), decide (t.block.bitIdx ≠ completing.block.bitIdx))) =
        some (true, true)) ∧
    (after (step { holding { Block.reset with bitIdx := 40 } with inbox := [.access 0x85 1 7] })).map (fun t => t.block.bitIdx) =
      some 0 := by decide
theorem witness_EveryTransactionEnds : (List.replicate 7592 high).length = 7592 := List.length_replicate
theorem witness_OutcomeIsAFunctionOfTheLine :
    (List.replicate 1000 low).length = 1000 ∧ (stdLine [0x01, 0x94, 0x00, 0xC8, 0x5D]).Measured ∧
      ((stdLine [0x01, 0x94, 0x00, 0xC8, 0x5D]).ending false).code = .success ∧
      ((stdLine [0x01, 0x94, 0x00, 0xC8, 0xC5]).ending false).code = .checksumError :=
  ⟨List.length_replicate, ⟨by decide, by decide, by decide, by decide, by decide⟩, by decide, by decide⟩

/-! The witnesses of TransactionDurations are the three lines of 95_test_vectors.md 2.5, run cell by cell. -/

theorem eq_ok_of_ticked {e : Except Refusal Block} {b : Block} (h : ticked e = some b) : e = .ok b := by
  cases e <;> simp_all [ticked]

/-- The frame after the first `k` bits, all of them zero or all of them one. -/
def uniformFrame (one : Bool) (k : Nat) : Frame :=
  Vector.ofFn fun i => if one then BitVec.ofNat 8 (2 ^ min 8 (k - 8 * i.val) - 1) else 0

/-- The entry of BIT_SEP after `k` such bits of the transaction accepted at now_s = 0 from reset. -/
def cellEntry (one : Bool) (k : Nat) : Block :=
  { waiting .bitSep 0 with bitIdx := BitVec.ofNat 6 k, frame := uniformFrame one k }

/-- The samples from the acceptance to the entry of the first BIT_SEP. -/
def opening (t1 t2 t3 : Nat) : List Level :=
  List.replicate 1000 low ++ List.replicate (t1 - 1) high ++ List.replicate t2 low ++ List.replicate t3 high ++ [low]

/-- The samples of one cell from the entry of its BIT_SEP to the entry of the next. -/
def cellTicks (sep pulse : Nat) : List Level :=
  List.replicate (sep - 1) low ++ List.replicate pulse high ++ [low]

theorem shortest_opening : runTicks (opening 10 70 70) (Block.reset.acceptPoll 0) = .ok (cellEntry false 0) :=
  eq_ok_of_ticked (by decide +kernel)

theorem longest_opening : runTicks (opening 200 110 100) (Block.reset.acceptPoll 0) = .ok (cellEntry true 0) :=
  eq_ok_of_ticked (by decide +kernel)

theorem shortest_cell : ∀ k, k < 39 → runTicks (cellTicks 40 16) (cellEntry false k) = .ok (cellEntry false (k + 1)) :=
  have h : ∀ k, k < 39 → ticked (runTicks (cellTicks 40 16) (cellEntry false k)) = some (cellEntry false (k + 1)) := by
    decide +kernel
  fun k hk => eq_ok_of_ticked (h k hk)

theorem longest_cell : ∀ k, k < 39 → runTicks (cellTicks 70 79) (cellEntry true k) = .ok (cellEntry true (k + 1)) :=
  have h : ∀ k, k < 39 → ticked (runTicks (cellTicks 70 79) (cellEntry true k)) = some (cellEntry true (k + 1)) := by
    decide +kernel
  fun k hk => eq_ok_of_ticked (h k hk)

/-- A transaction of these cells and this last stretch ends at its last tick. -/
theorem endsAt_after_cells {start cell tail rest : List Level} {one : Bool} {k : Nat} {v : Level} {c d : Block}
    (hstart : runTicks start (Block.reset.acceptPoll 0) = .ok (cellEntry one 0))
    (hcell : ∀ j, j < k → runTicks cell (cellEntry one j) = .ok (cellEntry one (j + 1)))
    (htail : runTicks tail (cellEntry one k) = .ok c) (busy : c.phase ≠ .idle) (hlast : c.tick params v = .ok d)
    (idle : d.phase = .idle) {n : Nat} (hn : start.length + k * cell.length + tail.length + 1 = n) :
    EndsAt ((start ++ (List.replicate k cell).flatten ++ tail) ++ v :: rest) (Block.reset.acceptPoll 0) n d := by
  have hlen : (start ++ (List.replicate k cell).flatten ++ tail).length + 1 = n := by
    simpa [Nat.add_assoc] using hn
  exact hlen ▸ .of_last_tick (by rw [List.append_assoc, runTicks_append_ok hstart, runTicks_append_ok (runTicks_repeat hcell), htail]) busy hlast idle

theorem witness_TransactionDurations_shortest_success :
    ∃ samples c, EndsAt samples (Block.reset.acceptPoll 0) 3390 c ∧ c.result = .success := by
  refine ⟨_, _, endsAt_after_cells (rest := []) (v := low) shortest_opening shortest_cell
    (tail := List.replicate 39 low ++ List.replicate 16 high)
    (c := { cellEntry false 39 with phase := .bitHigh, tmrCnt := 15 }) (eq_ok_of_ticked ?_) ?_ (eq_ok_of_ticked rfl) ?_ ?_, ?_⟩ <;> decide +kernel

theorem witness_TransactionDurations_longest_success :
    ∃ samples c, EndsAt samples (Block.reset.acceptPoll 0) 7280 c ∧ c.result = .success := by
  refine ⟨_, _, endsAt_after_cells (rest := []) (v := low) (k := 38) longest_opening (fun k hk => longest_cell k (by omega))
    (tail := cellTicks 70 34 ++ List.replicate 69 low ++ List.replicate 34 high)
    (c := { cellEntry true 38 with phase := .bitHigh, tmrCnt := 33, bitIdx := 39, frame := #v[0xFF, 0xFF, 0xFF, 0xFF, 0x7E] })
    (eq_ok_of_ticked ?_) ?_ (eq_ok_of_ticked rfl) ?_ ?_, ?_⟩ <;> decide +kernel

theorem witness_TransactionDurations_longest :
    ∃ samples c, EndsAt samples (Block.reset.acceptPoll 0) 7592 c ∧ c.result = .readBitTimeout := by
  refine ⟨_, _, endsAt_after_cells (rest := []) (v := high) longest_opening longest_cell
    (tail := List.replicate 69 low ++ List.replicate 301 high)
    (c := { cellEntry true 39 with phase := .bitHigh, tmrCnt := 300 }) (eq_ok_of_ticked ?_) ?_ (eq_ok_of_ticked rfl) ?_ ?_, ?_⟩ <;> decide +kernel

end Sys2Proof.Tests
end

