-- ==== Sys2Proof/Proofs/FreeEvent.lean ====
section
/-! The step with no event listed: which event it takes and from which state (log entry 1). -/

namespace Sys2Proof.Machine

section unlisted

variable (s : State)

theorem nextEvent_unlisted (h : s.inbox = []) : nextEvent s = Config.freeEvent s.drawn := by
  simp [nextEvent, h]

theorem takeEvent_unlisted (h : s.inbox = []) : takeEvent s = { s with drawn := s.drawn + 1 } := by
  simp [takeEvent, h]

/-- A step with no event listed delivers the free event of this draw. -/
theorem step_unlisted (h : s.inbox = []) :
    step s = deliver (Config.freeEvent s.drawn) { s with drawn := s.drawn + 1 } := by
  rw [step, nextEvent_unlisted s h, takeEvent_unlisted s h]

end unlisted

/-- Settles O8: taking the free event from the list leaves the list empty, as it was, so both steps deliver the same
event to the same state. -/
theorem stepDrawsAFreeEvent : Obligations.StepDrawsAFreeEvent := by
  intro s h
  rw [step_unlisted s h, step_listed _ (Config.freeEvent s.drawn) [] rfl, ← h]

end Sys2Proof.Machine
end

