-- ==== Sys2Proof/Proofs/BlockStep.lean ====
section
/-! What one step can do to the block, whatever its event; what Finalize leaves; and the phases by kind. -/

namespace Sys2Proof.Machine

/-- The ways a step other than a reset can change the block: by a tick, by an effective write, or not at all. -/
inductive BlockStep (b : Block) : Block → Prop where
  | same : BlockStep b b
  | tick {v : Level} {c : Block} (h : TickStep v b c) : BlockStep b c
  | configure (h : b.phase = .idle) (signSrc sepErrStop : Bool) :
      BlockStep b { b with cfgSignSrc := signSrc, cfgSepErrStop := sepErrStop }
  | accept (h : b.phase = .idle) (now : Seconds) : BlockStep b (b.acceptPoll now)
  | reject (h : b.phase = .idle) : BlockStep b b.rejectPoll

theorem BlockStep.writeCfg (b : Block) (d : Word) : BlockStep b (b.writeCfg d) := by
  unfold Block.writeCfg
  split
  case isTrue h => exact .configure h _ _
  case isFalse => exact .same

theorem BlockStep.poll (b : Block) (now : Seconds) : BlockStep b (b.poll params now) := by
  rcases Block.poll_cases params now b with ⟨_, e⟩ | ⟨h, _, e⟩ | ⟨h, _, e⟩
  · rw [e]; exact .same
  · rw [e]; exact .accept h now
  · rw [e]; exact .reject h

/-- A step resets the block by asserting rst, or changes it in one of the ways of `BlockStep`, and not at all where rst
is asserted after the step (70_reset_and_hazards.md R260). -/
theorem step_block_cases {s t : State} (h : step s = .next t) :
    (nextEvent s = .rstAssert ∧ t.block = Block.reset) ∨
    (nextEvent s ≠ .rstAssert ∧ BlockStep s.block t.block ∧ (t.rst = true → s.rst = true ∧ t.block = s.block)) := by
  rcases step_next_cases h with
    ⟨v, he, hr, ⟨hs, hb⟩ | ⟨hs, hb⟩⟩ | ⟨haw, d, now, he, hr, hb | ⟨x, _, hs, hb⟩ | ⟨x, _, hs, _, hb⟩⟩ |
    ⟨he, _, hb⟩ | ⟨he, hr, hb⟩
  · exact .inr ⟨by simp [he], hb ▸ .same, fun _ => ⟨hs, hb⟩⟩
  · exact .inr ⟨by simp [he], .tick (Block.tick_ok hb), by simp [hr, hs]⟩
  · exact .inr ⟨by simp [he], hb ▸ .same, fun ht => ⟨hr ▸ ht, hb⟩⟩
  · exact .inr ⟨by simp [he], hb ▸ .writeCfg s.block x, by simp [hr, hs]⟩
  · exact .inr ⟨by simp [he], hb ▸ .poll s.block now, by simp [hr, hs]⟩
  · exact .inl ⟨he, hb⟩
  · exact .inr ⟨by simp [he], hb ▸ .same, by simp [hr]⟩

section finalize

variable (p : Params) (b : Block)

@[simp] theorem Block.finalize_phase : (b.finalize p).phase = .idle := by
  rcases Block.finalize_cases p b with ⟨_, e⟩ | ⟨_, e⟩ <;> rw [e, endTransaction_phase]

@[simp] theorem Block.finalize_polled : (b.finalize p).polled = true := by
  rcases Block.finalize_cases p b with ⟨_, e⟩ | ⟨_, e⟩ <;> rw [e, endTransaction_polled]

@[simp] theorem Block.finalize_lastValid : (b.finalize p).lastValid = true := by
  rcases Block.finalize_cases p b with ⟨_, e⟩ | ⟨_, e⟩ <;> rw [e, endTransaction_lastValid]

theorem Block.finalize_keeps_rdValid (h : b.rdValid = true) : (b.finalize p).rdValid = true := by
  rcases Block.finalize_cases p b with ⟨_, e⟩ | ⟨_, e⟩
  · rw [e]; rfl
  · rw [e]; exact h

/-- The temperature after Finalize is the frame's or the one before (43_finalize_checksum_convert.md R177). -/
theorem Block.finalize_temp_cases :
    (b.finalize p).temp = temperature p b.cfgSignSrc b.frame ∨ (b.finalize p).temp = b.temp := by
  rcases Block.finalize_cases p b with ⟨_, e⟩ | ⟨_, e⟩
  · rw [e]; exact .inl rfl
  · rw [e]; exact .inr rfl

end finalize

theorem Phase.not_timed_iff (p : Phase) : p.timed ≠ true ↔ p = .idle ∨ p = .reqLow := by
  cases p <;> decide

theorem Phase.code_ne_seven (p : Phase) : p.code ≠ 7 := by
  cases p <;> decide

theorem Phase.mayFollow_self (p : Phase) : p.mayFollow p = true := by
  cases p <;> rfl

theorem Phase.mayFollow_idle (p : Phase) : p.mayFollow .idle = true := by
  cases p <;> rfl

end Sys2Proof.Machine
end

