-- ==== Sys2Proof/Proofs/Invariants.lean ====
section
/-! The invariants of 10_state.md R56 hold after reset, and every step keeps them. -/

namespace Sys2Proof.Machine

/-- The items of `Block.Inv` that do not look at the phase (R56 items 5, 7 and 8). -/
def Block.RecordsOk (b : Block) : Prop :=
  b.bitIdx.toNat ≤ 40 ∧ (b.rdValid = false → b.hum = 0 ∧ b.temp = 0) ∧ (b.lastValid = false → b.lastPoll = 0)

theorem Block.Inv.recordsOk {b : Block} (h : b.Inv) : b.RecordsOk := ⟨h.bitIdx_le, h.unread, h.unrecorded⟩

/-! What is left of the invariants in each kind of phase. -/

section kinds

variable {b : Block}

theorem Block.inv_of_idle (hp : b.phase = .idle) (line : b.lineOe = true ∧ b.lineOut = high) (hr : b.RecordsOk) :
    b.Inv := by
  obtain ⟨hk, hunread, hunrecorded⟩ := hr
  exact {
    idle_line := fun _ => line
    reqLow_line := fun h => by simp [hp] at h
    timed_line := fun h => by simp [hp, Phase.timed] at h
    bits_left := fun h => by simp [hp] at h
    bitIdx_le := hk
    code_ne_seven := Phase.code_ne_seven _
    unread := hunread
    unrecorded := hunrecorded
    fresh := fun h => by simp [hp, Phase.beforeBits] at h }

theorem Block.inv_of_reqLow (hp : b.phase = .reqLow)
    (line : b.lineOe = true ∧ b.lineOut = low ∧ b.holdCnt.toNat < 1000) (hr : b.RecordsOk)
    (fresh : b.bitIdx = 0 ∧ b.frame = #v[0x00, 0x00, 0x00, 0x00, 0x00]) : b.Inv := by
  obtain ⟨hk, hunread, hunrecorded⟩ := hr
  exact {
    idle_line := fun h => by simp [hp] at h
    reqLow_line := fun _ => line
    timed_line := fun h => by simp [hp, Phase.timed] at h
    bits_left := fun h => by simp [hp] at h
    bitIdx_le := hk
    code_ne_seven := Phase.code_ne_seven _
    unread := hunread
    unrecorded := hunrecorded
    fresh := fun _ => fresh }

theorem Block.inv_of_timed (hp : b.phase.timed = true)
    (line : b.lineOe = false ∧ b.lineOut = high ∧ b.tmrRun = true ∧ b.tmrCnt.toNat ≤ 300)
    (bits : b.phase = .bitSep ∨ b.phase = .bitHigh → b.bitIdx.toNat ≤ 39) (hr : b.RecordsOk)
    (fresh : b.phase.beforeBits = true → b.bitIdx = 0 ∧ b.frame = #v[0x00, 0x00, 0x00, 0x00, 0x00]) : b.Inv := by
  obtain ⟨hk, hunread, hunrecorded⟩ := hr
  exact {
    idle_line := fun h => by simp [h, Phase.timed] at hp
    reqLow_line := fun h => by simp [h, Phase.timed] at hp
    timed_line := fun _ => line
    bits_left := bits
    bitIdx_le := hk
    code_ne_seven := Phase.code_ne_seven _
    unread := hunread
    unrecorded := hunrecorded
    fresh := fresh }

end kinds

/-! Each operation keeps them. -/

theorem Block.reset_inv : Block.reset.Inv :=
  inv_of_idle rfl ⟨rfl, rfl⟩ ⟨by decide, fun _ => ⟨rfl, rfl⟩, fun _ => rfl⟩

theorem Block.endTransaction_inv {b : Block} (hr : b.RecordsOk) (code : ResultCode) (stopTimer : Bool) :
    (b.endTransaction code stopTimer).Inv :=
  let ⟨hk, hunread, _⟩ := hr
  inv_of_idle rfl ⟨rfl, rfl⟩ ⟨hk, hunread, by simp⟩

theorem Block.finalize_inv {b : Block} (hr : b.RecordsOk) (p : Params) : (b.finalize p).Inv := by
  rcases Block.finalize_cases p b with ⟨_, e⟩ | ⟨_, e⟩
  · obtain ⟨hk, _, hunrecorded⟩ := hr
    rw [e]
    exact endTransaction_inv (b := b.storeReading p) ⟨hk, by simp, hunrecorded⟩ _ _
  · rw [e]; exact endTransaction_inv hr _ _

/-- Going on to a timed phase. -/
theorem Block.Inv.enterTimed {b : Block} (h : b.Inv) (hp : b.phase.timed = true) {q : Phase} (hq : q.timed = true)
    (bits : q = .bitSep ∨ q = .bitHigh → b.bitIdx.toNat ≤ 39) (before : q.beforeBits = true → b.phase.beforeBits = true) :
    (b.timerAdvance.enterTimed q).Inv := by
  obtain ⟨hoe, hout, hrun, _⟩ := h.timed_line hp
  exact inv_of_timed hq ⟨hoe, hout, hrun, by simp⟩ bits h.recordsOk fun hb => h.fresh (before hb)

/-- In BIT_HIGH the invariants leave the frame free and only bound bit_idx. -/
theorem Block.Inv.withBit {b : Block} (h : b.Inv) (hp : b.phase = .bitHigh) (f : Frame) {k : BitIdx}
    (hk : k.toNat ≤ 39) : Block.Inv { b with frame := f, bitIdx := k } := by
  have ht : b.phase.timed = true := hp ▸ rfl
  exact inv_of_timed ht (h.timed_line ht) (fun _ => hk) ⟨hk.trans (by decide), h.unread, h.unrecorded⟩
    fun hb => by simp [hp, Phase.beforeBits] at hb

/-- Every tick keeps the block's invariants. -/
theorem TickStep.inv {v : Level} {b c : Block} (hi : b.Inv) (h : TickStep v b c) : c.Inv := by
  cases h with
  | idle h => exact Block.inv_of_idle h (hi.idle_line h) hi.recordsOk
  | hold h hn =>
    obtain ⟨hoe, hout, hc⟩ := hi.reqLow_line h
    have hlt : (b.holdCnt + 1).toNat < 1000 := by bv_omega
    exact Block.inv_of_reqLow h ⟨hoe, hout, hlt⟩ hi.recordsOk (hi.fresh (h ▸ rfl))
  | arm h _ =>
    exact Block.inv_of_timed rfl ⟨rfl, rfl, rfl, by simp⟩ (by simp) hi.recordsOk fun _ => hi.fresh (h ▸ rfl)
  | stay h _ ht =>
    obtain ⟨hoe, hout, hrun, _⟩ := hi.timed_line h
    exact Block.inv_of_timed h ⟨hoe, hout, hrun, ht⟩ hi.bits_left hi.recordsOk hi.fresh
  | timeout | ackFailed | sepFailed | pulseFailed =>
    exact Block.endTransaction_inv (b := b.timerAdvance) hi.recordsOk _ _
  | ackLow h => exact hi.enterTimed (h ▸ rfl) rfl (by simp) fun _ => h ▸ rfl
  | ackHigh h => exact hi.enterTimed (h ▸ rfl) rfl (by simp) fun _ => h ▸ rfl
  | bitSep h =>
    have hfresh : b.bitIdx = 0 := (hi.fresh (h ▸ rfl)).1
    exact hi.enterTimed (h ▸ rfl) rfl (fun _ => by simp [hfresh]) fun hq => by cases hq
  | bitHigh h => exact hi.enterTimed (h ▸ rfl) rfl (fun _ => hi.bits_left (.inl h)) fun hq => by cases hq
  | nextBit h _ bit _ hk f _ =>
    have hle : (b.bitIdx + 1).toNat ≤ 39 := by bv_omega
    exact (hi.withBit h f hle).enterTimed (h ▸ rfl) rfl (fun _ => hle) fun hq => by cases hq
  | lastBit h _ bit _ hk f _ =>
    have hle : (b.bitIdx + 1).toNat ≤ 40 := by bv_omega
    refine Block.finalize_inv ?_ _
    exact ⟨hle, hi.unread, hi.unrecorded⟩

/-- Every step but a reset keeps the block's invariants. -/
theorem BlockStep.inv {b c : Block} (hi : b.Inv) (h : BlockStep b c) : c.Inv := by
  cases h with
  | same => exact hi
  | tick h => exact h.inv hi
  | configure h | reject h => exact Block.inv_of_idle h (hi.idle_line h) hi.recordsOk
  | accept _ now =>
    exact Block.inv_of_reqLow rfl ⟨rfl, rfl, by simp⟩ ⟨by simp, hi.unread, hi.unrecorded⟩ ⟨rfl, rfl⟩

/-- Settles O48: the block is in IDLE with its reset values, and rst is released. -/
theorem resetMeetsTheInvariants : Obligations.ResetMeetsTheInvariants where
  block_inv := Block.reset_inv
  held_reset h := by cases h

/-- Settles O49: a reset gives the reset block, and any other step keeps the block's invariants and, while rst is
asserted, the block. -/
theorem stepKeepsTheInvariants : Obligations.StepKeepsTheInvariants := by
  intro s t hs h
  rcases step_block_cases h with ⟨_, hb⟩ | ⟨_, hb, hheld⟩
  · exact ⟨hb ▸ Block.reset_inv, fun _ => hb⟩
  · refine ⟨hb.inv hs.block_inv, fun ht => ?_⟩
    obtain ⟨hrst, hsame⟩ := hheld ht
    exact hsame.trans (hs.held_reset hrst)

end Sys2Proof.Machine
end

