-- ==== Sys2Proof/Proofs/StateRules.lean ====
section
/-! What every step keeps of the temperature, the phase order and the flags; and three rules on one element each:
now_latch, bit_idx, line_oe. -/

namespace Sys2Proof.Machine

/-! ## The temperature (10_state.md R30) -/

/-- The magnitude's top bit is masked away (43_finalize_checksum_convert.md R174). -/
theorem tempMagnitude_lt (f : Frame) : (tempMagnitude params f).toNat < 2 ^ 15 := by
  have hmask : (0x7F#8).msb = false := rfl
  have hmsb : ((f[2] &&& 0x7F#8) ++ f[3]).msb = false := by
    rw [BitVec.msb_append]
    simp [hmask]
  exact BitVec.toNat_lt_of_msb_false hmsb

/-- A signed magnitude of 15 bits is never the 16-bit minimum (R176). -/
theorem temperature_ne_minimum (signSrc : Bool) (f : Frame) : (temperature params signSrc f).toInt ≠ -32768 := by
  have hlt := tempMagnitude_lt f
  unfold temperature
  split
  · rw [BitVec.toInt_eq_toNat_cond]; bv_omega
  · rw [BitVec.toInt_eq_toNat_cond]; omega

theorem TickStep.temp_cases {v : Level} {b c : Block} (h : TickStep v b c) :
    c.temp = b.temp ∨ ∃ signSrc f, c.temp = temperature params signSrc f := by
  cases h with
  | lastBit =>
    rcases Block.finalize_temp_cases params _ with e | e
    · exact .inr ⟨_, _, e⟩
    · exact .inl e
  | _ => exact .inl rfl

theorem BlockStep.temp_cases {b c : Block} (h : BlockStep b c) :
    c.temp = b.temp ∨ ∃ signSrc f, c.temp = temperature params signSrc f := by
  cases h with
  | tick h => exact h.temp_cases
  | _ => exact .inl rfl

/-- Settles O50: a step keeps the temperature, resets it, or stores a converted one. -/
theorem temperatureIsNeverTheMinimum : Obligations.TemperatureIsNeverTheMinimum := by
  intro s t hs h
  rcases step_block_cases h with ⟨_, hb⟩ | ⟨_, hb, _⟩
  · rw [hb]; decide
  · rcases hb.temp_cases with e | ⟨signSrc, f, e⟩
    · rwa [e]
    · rw [e]; exact temperature_ne_minimum signSrc f

/-! ## The phase order (10_state.md R41) -/

theorem TickStep.mayFollow {v : Level} {b c : Block} (h : TickStep v b c) :
    b.phase.mayFollow c.phase = true := by
  cases h with
  | idle | hold | stay => exact Phase.mayFollow_self _
  | timeout | ackFailed | sepFailed | pulseFailed => exact Phase.mayFollow_idle _
  | lastBit => rw [Block.finalize_phase]; exact Phase.mayFollow_idle _
  | arm h | ackLow h | ackHigh h | bitSep h | bitHigh h | nextBit h => rw [h]; rfl

theorem BlockStep.mayFollow {b c : Block} (h : BlockStep b c) : b.phase.mayFollow c.phase = true := by
  cases h with
  | tick h => exact h.mayFollow
  | same | configure | reject => exact Phase.mayFollow_self _
  | accept h => rw [h]; rfl

/-- Settles O51: a reset goes to IDLE, and every other step keeps the order. -/
theorem phasesKeepTheirOrder : Obligations.PhasesKeepTheirOrder := by
  intro s t h
  rcases step_block_cases h with ⟨_, hb⟩ | ⟨_, hb, _⟩
  · rw [hb]; exact Phase.mayFollow_idle _
  · exact hb.mayFollow

/-! ## The flags (10_state.md R28, R31, R33) -/

/-- No flag that is 1 in `b` is 0 in `c`. -/
def Block.FlagsKept (b c : Block) : Prop :=
  (b.polled = true → c.polled = true) ∧ (b.rdValid = true → c.rdValid = true) ∧
    (b.lastValid = true → c.lastValid = true)

theorem TickStep.flagsKept {v : Level} {b c : Block} (h : TickStep v b c) : b.FlagsKept c := by
  cases h with
  | timeout | ackFailed | sepFailed | pulseFailed => exact ⟨fun _ => rfl, id, fun _ => rfl⟩
  | lastBit =>
    exact ⟨fun _ => Block.finalize_polled _ _, fun hv => Block.finalize_keeps_rdValid _ _ hv,
      fun _ => Block.finalize_lastValid _ _⟩
  | _ => exact ⟨id, id, id⟩

theorem BlockStep.flagsKept {b c : Block} (h : BlockStep b c) : b.FlagsKept c := by
  cases h with
  | tick h => exact h.flagsKept
  | reject => exact ⟨fun _ => rfl, id, id⟩
  | _ => exact ⟨id, id, id⟩

/-- Settles O54: only a reset clears a flag. -/
theorem flagsAreClearedOnlyByReset : Obligations.FlagsAreClearedOnlyByReset := by
  intro s t h hne
  rcases step_block_cases h with ⟨he, _⟩ | ⟨_, hb, _⟩
  · exact absurd he hne
  · exact hb.flagsKept

/-! ## now_latch (10_state.md R34) -/

/-- Settles O19: each read's word is made of elements other than now_latch. -/
theorem nowLatchIsInvisible : Obligations.NowLatchIsInvisible := by
  intro i s n hread
  cases i with
  | rsv6 w | rsv5 w | rsv4 w => cases (show w = false from hread); exact ⟨0, rfl, rfl⟩
  | rdStatus => exact ⟨s.block.statusWord, rfl, rfl⟩
  | rdResult => exact ⟨s.block.resultWord, rfl, rfl⟩
  | rdHum => exact ⟨s.block.humWord, rfl, rfl⟩
  | rdTemp => exact ⟨s.block.tempWord, rfl, rfl⟩
  | rdCfg => exact ⟨s.block.cfgWord, rfl, rfl⟩
  | rdLastpoll => exact ⟨s.block.lastPollWord, rfl, rfl⟩
  | rdFrameHi => exact ⟨s.block.frameHiWord, rfl, rfl⟩
  | rdFrameCk => exact ⟨s.block.frameCkWord, rfl, rfl⟩
  | rdTimer => exact ⟨s.block.timerWord, rfl, rfl⟩
  | rdPhase => exact ⟨s.block.phaseWord, rfl, rfl⟩
  | rdCmd | rdRsvdB | rdRsvdC | rdRsvdD | rdRsvdE | rdRsvdF => exact ⟨zeroWord, rfl, rfl⟩
  | _ => cases hread

/-! ## bit_idx beyond the frame (93_implementation_defined.md I17) -/

theorem Block.takeBit_out (p : Params) (bit : Bool) (b : Block) (h : 40 ≤ b.bitIdx.toNat) :
    b.takeBit p bit = .error .bitIdxOutOfFrame := by
  unfold Block.takeBit
  rw [appendBit_out _ _ _ (by omega)]

theorem exists_classify_eq_some {t : Nat} (h : (16 ≤ t ∧ t ≤ 34) ∨ (66 ≤ t ∧ t ≤ 79)) :
    ∃ bit, classify params t = some bit := by
  rcases h with h | h
  · exact ⟨false, (classify_eq_some_false_iff t).mpr h⟩
  · exact ⟨true, (classify_eq_some_true_iff t).mpr h⟩

/-- Settles O41: the pulse passes the wait, and its bit has no place in the frame. -/
theorem bitBeyondTheFrameIsRefused : Obligations.BitBeyondTheFrameIsRefused := by
  intro b hp hk ht
  obtain ⟨bit, hbit⟩ := exists_classify_eq_some ht
  calc b.tick params low
      _ = b.timerAdvance.bitHighTick params low := Block.tick_bitHigh hp
      _ = b.timerAdvance.takeBit params bit := Block.wait_pass (by decide) hbit
      _ = .error .bitIdxOutOfFrame := Block.takeBit_out _ _ _ hk

/-! ## The driven line (10_state.md R54) -/

/-- Settles O56: a block that drives its line is in IDLE or REQ_LOW, where no tick looks at the sample. -/
theorem drivenLineIsNeverSampled : Obligations.DrivenLineIsNeverSampled := by
  intro b hi hoe
  have hp : b.phase.timed ≠ true := fun ht => by
    obtain ⟨hreleased, _⟩ := hi.timed_line ht
    exact absurd (hoe.symm.trans hreleased) (by decide)
  rcases (Phase.not_timed_iff _).mp hp with h | h
  · rw [Block.tick_idle h, Block.tick_idle h]
  · rw [Block.tick_reqLow h, Block.tick_reqLow h]

end Sys2Proof.Machine
end

