-- ==== Sys2Proof/Proofs/LineBits.lean ====
section
/-! Where the bits of the line stand in the frame, during a transaction and after it (20_memory.md R61;
42_bit_decode.md R153). -/

namespace Sys2Proof.Machine

/-! A bit shifted into a byte stands at position 0, and every earlier bit moves up by one. -/

theorem shiftIn_getLsbD_zero (byte : Byte) (bit : Bool) : (shiftIn byte bit).getLsbD 0 = bit := by
  simp [shiftIn]

theorem shiftIn_getLsbD_succ (byte : Byte) (bit : Bool) {i : Nat} (h : i + 1 < 8) :
    (shiftIn byte bit).getLsbD (i + 1) = byte.getLsbD i := by
  have hi : i < 8 := by omega
  simp [shiftIn, h, BitVec.getLsbD_eq_getElem hi]

/-- Where bit `k` stands in its byte once `n` bits have come: it moves up until its byte has its eight bits, so a byte
that is still being filled is right-aligned. -/
def bitPosition (n k : Nat) : Nat := min n (8 * (k / 8) + 8) - 1 - k

theorem bitPosition_newest (n : Nat) : bitPosition (n + 1) n = 0 := by
  unfold bitPosition; omega

theorem bitPosition_succ_same_byte {n k : Nat} (hk : k < n) (h : k / 8 = n / 8) :
    bitPosition (n + 1) k = bitPosition n k + 1 := by
  unfold bitPosition; omega

theorem bitPosition_succ_other_byte {n k : Nat} (hk : k < n) (h : k / 8 ≠ n / 8) :
    bitPosition (n + 1) k = bitPosition n k := by
  unfold bitPosition; omega

theorem bitPosition_lt {n k : Nat} (h : k / 8 = n / 8) : bitPosition n k + 1 < 8 := by
  unfold bitPosition; omega

theorem bitPosition_complete {k : Nat} (h : k < 40) : bitPosition 40 k = 7 - k % 8 := by
  unfold bitPosition; omega

/-- Each of these bits, the first ones of a transaction, stands in the frame at its place. -/
def Frame.Holds (f : Frame) (bits : List Bool) : Prop :=
  ∀ (k : Nat) (h : k < 40), k < bits.length →
    (f[k / 8]'(by omega)).getLsbD (bitPosition bits.length k) = bits[k]?.getD false

/-- Appending the next bit puts it in its place and keeps the earlier ones in theirs. -/
theorem appendBit_holds {bits : List Bool} {f : Frame} (hf : Frame.Holds f bits) (hn : bits.length < 40) (bit : Bool) :
    ∃ g, appendBit (BitVec.ofNat 6 bits.length) bit f = .ok g ∧ Frame.Holds g (bits ++ [bit]) := by
  have hidx : (BitVec.ofNat 6 bits.length).toNat = bits.length := by
    rw [BitVec.toNat_ofNat]; omega
  have hin : bits.length / 8 < 5 := by omega
  refine ⟨f.set (bits.length / 8) (shiftIn f[bits.length / 8] bit), ?_, ?_⟩
  · rw [appendBit_in _ _ _ (by rw [hidx]; exact hin)]
    simp only [hidx]
  · intro k h40 hk
    rw [List.length_append, List.length_singleton] at hk ⊢
    by_cases hnew : k = bits.length
    · subst hnew
      rw [bitPosition_newest, Vector.getElem_set_self, shiftIn_getLsbD_zero]
      simp
    · have hold : k < bits.length := by omega
      rw [List.getElem?_append_left hold, ← hf k h40 hold]
      by_cases hbyte : k / 8 = bits.length / 8
      · rw [bitPosition_succ_same_byte hold hbyte]
        simp only [hbyte, Vector.getElem_set_self]
        exact shiftIn_getLsbD_succ _ _ (bitPosition_lt hbyte)
      · rw [bitPosition_succ_other_byte hold hbyte, Vector.getElem_set_ne _ _ (Ne.symm hbyte)]

/-- Appending the rest of a transaction's bits completes and puts every bit in its place. -/
theorem appendAll_holds (bits rest : List Bool) (f : Frame) (hf : Frame.Holds f bits)
    (hn : (bits ++ rest).length ≤ 40) :
    ∃ g, appendAll rest (BitVec.ofNat 6 bits.length) f = .ok g ∧ Frame.Holds g (bits ++ rest) := by
  induction rest generalizing bits f with
  | nil => exact ⟨f, rfl, by rwa [List.append_nil]⟩
  | cons bit rest ih =>
    have hlt : bits.length < 40 := by rw [List.length_append, List.length_cons] at hn; omega
    obtain ⟨f', happ, hf'⟩ := appendBit_holds hf hlt bit
    obtain ⟨g, hall, hg⟩ := ih (bits ++ [bit]) f' hf' (by simpa using hn)
    refine ⟨g, ?_, by simpa using hg⟩
    have hnext : BitVec.ofNat 6 bits.length + 1 = BitVec.ofNat 6 (bits ++ [bit]).length := by
      rw [List.length_append, List.length_singleton, BitVec.ofNat_add]
      rfl
    simp only [appendAll, happ]
    rw [hnext, hall]

/-- Settles O44: from an empty list of bits every frame will do, and with all 40 bits each byte has its eight. -/
theorem lineBitsLandInOrder : Obligations.LineBitsLandInOrder := by
  intro bits f hlen
  obtain ⟨g, happ, hg⟩ := appendAll_holds [] bits f (fun k _ hk => absurd hk (Nat.not_lt_zero k)) hlen.le
  refine ⟨g, happ, fun k h40 => ?_⟩
  have hk := hg k h40 (by simpa [hlen] using h40)
  rwa [List.nil_append, hlen, bitPosition_complete h40] at hk

end Sys2Proof.Machine
end

