-- ==== Sys2Proof/Proofs/HostAccess.lean ====
section
/-! Host accesses: the access a step runs, and what a read and a write can change (20_memory.md R67, R69). -/

/-! ## A well-formed access is the one its word decodes to (30_encoding.md R80 to R85) -/

namespace Sys2Proof

/-- An operand that passes the check is one that its word carries (R80, R84). -/
theorem writeData_of_reservedOperandOk {w : Bool} {d : Word} (h : reservedOperandOk w d = true) :
    writeData w d = d := by
  cases w
  · exact (eq_of_beq (show (d == 0) = true from h)).symm
  · rfl

/-! The bits of a reserved word: W, the bits that name its row, and the free ones (R82, R90). -/

theorem rsv6_bits (w : Bool) (rest : BitVec 6) :
    hawW (BitVec.ofBool w ++ 0b1#1 ++ rest) = w ∧ (BitVec.ofBool w ++ 0b1#1 ++ rest).getLsbD 6 = true ∧
      (BitVec.ofBool w ++ 0b1#1 ++ rest).extractLsb' 0 6 = rest := by
  revert w rest; decide

theorem rsv5_bits (w : Bool) (rest : BitVec 5) :
    hawW (BitVec.ofBool w ++ 0b01#2 ++ rest) = w ∧ (BitVec.ofBool w ++ 0b01#2 ++ rest).getLsbD 6 = false ∧
      (BitVec.ofBool w ++ 0b01#2 ++ rest).getLsbD 5 = true ∧
      (BitVec.ofBool w ++ 0b01#2 ++ rest).extractLsb' 0 5 = rest := by
  revert w rest; decide

theorem rsv4_bits (w : Bool) (rest : BitVec 4) :
    hawW (BitVec.ofBool w ++ 0b001#3 ++ rest) = w ∧ (BitVec.ofBool w ++ 0b001#3 ++ rest).getLsbD 6 = false ∧
      (BitVec.ofBool w ++ 0b001#3 ++ rest).getLsbD 5 = false ∧ (BitVec.ofBool w ++ 0b001#3 ++ rest).getLsbD 4 = true ∧
      (BitVec.ofBool w ++ 0b001#3 ++ rest).extractLsb' 0 4 = rest := by
  revert w rest; decide

/-- The decoder gives back a well-formed access from its word: a reserved one by its bits, any other by evaluation. -/
theorem decode_encode {i : Instr} (h : i.WellFormed) : decode (encode i) = i := by
  cases i with
  | rsv6 w rest d =>
    obtain ⟨hw, h6, hrest⟩ := rsv6_bits w rest
    rw [encode, decode_of_rsv6 _ _ h6, hw, hrest, writeData_of_reservedOperandOk h]
  | rsv5 w rest d =>
    obtain ⟨hw, h6, h5, hrest⟩ := rsv5_bits w rest
    rw [encode, decode_of_rsv5 _ _ h6 h5, hw, hrest, writeData_of_reservedOperandOk h]
  | rsv4 w rest d =>
    obtain ⟨hw, h6, h5, h4, hrest⟩ := rsv4_bits w rest
    rw [encode, decode_of_rsv4 _ _ h6 h5 h4, hw, hrest, writeData_of_reservedOperandOk h]
  | wrStatus d | wrResult d | wrHum d | wrTemp d | wrCfg d | wrCmd d | wrLastpoll d | wrFrameHi d | wrFrameCk d
  | wrTimer d | wrPhase d | wrRsvdB d | wrRsvdC d | wrRsvdD d | wrRsvdE d | wrRsvdF d =>
    exact decode_of_write _ d rfl rfl rfl rfl
  | _ => rfl

end Sys2Proof

namespace Sys2Proof.Machine

/-- A listed host access runs the access its word decodes to. -/
theorem step_listed_access (s : State) (haw : Haw) (d : Word) (now : Seconds) (rest : List Event)
    (h : s.inbox = .access haw d now :: rest) :
    step s = exec (decode ⟨haw, d⟩) { s with inbox := rest, nowS := now } :=
  step_listed s _ rest h

/-- Settles O6: a listed event is delivered, and a well-formed access is what its word decodes to. -/
theorem stepRunsTheDecodedAccess : Obligations.StepRunsTheDecodedAccess := by
  refine ⟨step_listed_access, fun s i now rest hi h => ?_⟩
  rw [step_listed_access s _ _ now rest h, decode_encode hi]

/-! ## Reads -/

/-- Settles O18: of the things a host access can do, the two effective writes are no reads. -/
theorem readsChangeNoState : Obligations.ReadsChangeNoState := by
  intro i s hread
  rcases exec_cases i s with hv | e | ⟨d, rfl, _⟩ | ⟨d, rfl, _⟩
  · exact hv
  · exact ⟨s.rdata, e⟩
  · cases hread
  · cases hread

/-! ## Writes of CFG (44_register_access.md R195) -/

/-- The two fields of a CFG word, side by side, are the word with its other bits cleared. -/
theorem cfgBits_eq_and (d : Word) :
    (BitVec.ofBool (d.getLsbD 1) ++ BitVec.ofBool (d.getLsbD 0)).setWidth 32 = d &&& 0x3#32 := by
  have hpair : ∀ x y : Bool, (BitVec.ofBool x ++ BitVec.ofBool y).getLsbD 0 = y ∧
      (BitVec.ofBool x ++ BitVec.ofBool y).getLsbD 1 = x := by decide
  obtain ⟨h0, h1⟩ := hpair (d.getLsbD 1) (d.getLsbD 0)
  refine BitVec.eq_of_getLsbD_eq fun i hi => ?_
  rw [BitVec.getLsbD_setWidth, BitVec.getLsbD_and]
  match i with
  | 0 => rw [h0]; simp
  | 1 => rw [h1]; simp
  | i + 2 =>
    have hmask : (0x3#32).getLsbD (i + 2) = false := by
      rw [BitVec.getLsbD_ofNat, show 3 = 2 ^ 2 - 1 from rfl, Nat.testBit_two_pow_sub_one]
      simp
    rw [hmask, BitVec.getLsbD_of_ge _ _ (by omega), Bool.and_false, Bool.and_false]

section writeCfg

variable {b : Block} (d : Word)

theorem Block.writeCfg_idle (h : b.phase = .idle) :
    b.writeCfg d = { b with cfgSignSrc := wdataSignSrc d, cfgSepErrStop := wdataSepErrStop d } := if_pos h

theorem Block.writeCfg_busy (h : b.phase ≠ .idle) : b.writeCfg d = b := if_neg h

theorem Block.idle_of_writeCfg_ne (h : b.writeCfg d ≠ b) : b.phase = .idle :=
  not_not.mp fun hb => h (writeCfg_busy d hb)

theorem Block.writeCfg_writeCfg (b : Block) : (b.writeCfg d).writeCfg d = b.writeCfg d := by
  by_cases h : b.phase = .idle
  · rw [writeCfg_idle d h]
    exact writeCfg_idle d h
  · rw [writeCfg_busy d h, writeCfg_busy d h]

/-- CFG reads back the two bits it holds (10_state.md R43). -/
theorem Block.cfgWord_writeCfg (h : b.phase = .idle) : (b.writeCfg d).cfgWord = d &&& 0x3#32 := by
  rw [writeCfg_idle d h]
  exact cfgBits_eq_and d

end writeCfg

theorem exec_wrCfg_free (d : Word) (s : State) (h : s.rst = false) :
    exec (.wrCfg d) s = .next { s with block := s.block.writeCfg d } := hostWrite_free _ s h

/-- Settles O23: the first write leaves the two bits in CFG, and writing CFG twice is writing it once. -/
theorem configReadsBackWhatWasWritten : Obligations.ConfigReadsBackWhatWasWritten := by
  intro d s hrst hidle
  refine ⟨_, _, exec_wrCfg_free d s hrst, rfl, Block.cfgWord_writeCfg d hidle, ?_⟩
  refine (exec_wrCfg_free d { s with block := s.block.writeCfg d } hrst).trans ?_
  simp only [Block.writeCfg_writeCfg]

/-! ## All writes -/

theorem Block.idle_of_poll_ne {p : Params} {now : Seconds} {b : Block} (h : b.poll p now ≠ b) : b.phase = .idle := by
  rcases Block.poll_cases p now b with ⟨_, e⟩ | ⟨hi, _⟩ | ⟨hi, _⟩
  · exact absurd e h
  · exact hi
  · exact hi

theorem hostWrite_keeps_rdata {f : Block → Block} {s t : State} (h : hostWrite f s = .next t) : t.rdata = s.rdata := by
  rcases Bool.eq_false_or_eq_true s.rst with hr | hr
  · rw [hostWrite_held f s hr] at h; cases h; rfl
  · rw [hostWrite_free f s hr] at h; cases h; rfl

/-- A write leaves rdata (log entry 3). -/
theorem exec_write_keeps_rdata {i : Instr} {s t : State} (hw : i.isWrite = true) (h : exec i s = .next t) :
    t.rdata = s.rdata := by
  cases i with
  | wrCfg d | wrCmd d => exact hostWrite_keeps_rdata h
  | rsv6 w | rsv5 w | rsv4 w => cases (show w = true from hw); cases h; rfl
  | wrStatus | wrResult | wrHum | wrTemp | wrLastpoll | wrFrameHi | wrFrameCk | wrTimer | wrPhase
  | wrRsvdB | wrRsvdC | wrRsvdD | wrRsvdE | wrRsvdF => cases h; rfl
  | _ => cases hw

/-- Settles O28: a read changes rdata only, an ignored write nothing, and an effective one only the block, which it leaves
as it is outside IDLE. -/
theorem onlyTwoWritesChangeTheBlock : Obligations.OnlyTwoWritesChangeTheBlock := by
  intro i s
  rcases exec_cases i s with ⟨v, e⟩ | e | ⟨d, rfl, hrst, e⟩ | ⟨d, rfl, hrst, e⟩
  · exact ⟨_, e, rfl, rfl, rfl, rfl, fun hw => exec_write_keeps_rdata hw e, fun h => absurd rfl h⟩
  · exact ⟨_, e, rfl, rfl, rfl, rfl, fun _ => rfl, fun h => absurd rfl h⟩
  · refine ⟨_, e, rfl, rfl, rfl, rfl, fun _ => rfl, fun hne => ?_⟩
    exact ⟨hrst, Block.idle_of_writeCfg_ne d hne, .inl ⟨d, rfl⟩⟩
  · refine ⟨_, e, rfl, rfl, rfl, rfl, fun _ => rfl, fun hne => ?_⟩
    dsimp only at hne
    split at hne
    case isTrue hpoll => exact ⟨hrst, Block.idle_of_poll_ne hne, .inr ⟨d, rfl, hpoll⟩⟩
    case isFalse => exact absurd rfl hne

end Sys2Proof.Machine
end

