-- ==== Sys2Proof/Proofs/Encoding.lean ====
section
/-! The encoding of the host accesses: the two round trips, the rows of the opcode table, the pseudo-instructions, and
what a reserved word does (30_encoding.md R80 to R90). -/

namespace Sys2Proof

/-! ## From an access to its word and back -/

/-- Settles O1: each reserved access is told by the bits of its word, and any other by its register index. -/
theorem decodeOfEncodeIsTheAccess : Obligations.DecodeOfEncodeIsTheAccess := fun _ h => decode_encode h

/-! ## From a word to its access and back -/

section words

variable {haw : Haw} (h6 : haw.getLsbD 6 = false) (h5 : haw.getLsbD 5 = false) (h4 : haw.getLsbD 4 = false)

/-! Each kind of word is put together again from the fields the decoder takes out of it (R80, R82). -/

theorem rsv6_word (h : haw.getLsbD 6 = true) : BitVec.ofBool (hawW haw) ++ 0b1#1 ++ haw.extractLsb' 0 6 = haw := by
  revert haw; decide

include h6 in
theorem rsv5_word (h : haw.getLsbD 5 = true) : BitVec.ofBool (hawW haw) ++ 0b01#2 ++ haw.extractLsb' 0 5 = haw := by
  revert haw; decide

include h6 h5 in
theorem rsv4_word (h : haw.getLsbD 4 = true) : BitVec.ofBool (hawW haw) ++ 0b001#3 ++ haw.extractLsb' 0 4 = haw := by
  revert haw; decide

include h6 h5 h4 in
theorem register_word : BitVec.ofBool (hawW haw) ++ 0b000#3 ++ hawReg haw = haw := by
  revert haw; decide

end words

/-- Everything the decoder can give for a word: a reserved access, whose low bits complete the word, or the read or the
write of a register. -/
theorem decode_cases (haw : Haw) (d : Word) :
    (∃ rest, BitVec.ofBool (hawW haw) ++ 0b1#1 ++ rest = haw ∧
      decode ⟨haw, d⟩ = .rsv6 (hawW haw) rest (writeData (hawW haw) d)) ∨
    (∃ rest, BitVec.ofBool (hawW haw) ++ 0b01#2 ++ rest = haw ∧
      decode ⟨haw, d⟩ = .rsv5 (hawW haw) rest (writeData (hawW haw) d)) ∨
    (∃ rest, BitVec.ofBool (hawW haw) ++ 0b001#3 ++ rest = haw ∧
      decode ⟨haw, d⟩ = .rsv4 (hawW haw) rest (writeData (hawW haw) d)) ∨
    (∃ reg, hawW haw = false ∧ (assemble (.rd reg)).haw = haw ∧ decode ⟨haw, d⟩ = decodeRead reg) ∨
    (∃ reg, hawW haw = true ∧ (assemble (.wr reg d)).haw = haw ∧ decode ⟨haw, d⟩ = decodeWrite reg d) := by
  rcases Bool.eq_false_or_eq_true (haw.getLsbD 6) with h6 | h6
  · exact .inl ⟨_, rsv6_word h6, decode_of_rsv6 haw d h6⟩
  rcases Bool.eq_false_or_eq_true (haw.getLsbD 5) with h5 | h5
  · exact .inr (.inl ⟨_, rsv5_word h6 h5, decode_of_rsv5 haw d h6 h5⟩)
  rcases Bool.eq_false_or_eq_true (haw.getLsbD 4) with h4 | h4
  · exact .inr (.inr (.inl ⟨_, rsv4_word h6 h5 h4, decode_of_rsv4 haw d h6 h5 h4⟩))
  have hword := register_word h6 h5 h4
  rcases Bool.eq_false_or_eq_true (hawW haw) with hw | hw <;> rw [hw] at hword
  · exact .inr (.inr (.inr (.inr ⟨_, hw, hword, decode_of_write haw d h6 h5 h4 hw⟩)))
  · exact .inr (.inr (.inr (.inl ⟨_, hw, hword, decode_of_read haw d h6 h5 h4 hw⟩)))

/-! What the decoder gives for a register is well-formed, has the direction of its word, and is encoded as the host
assembles its line (R83, R86). -/

theorem decodeRead_wellFormed (reg : BitVec 4) : (decodeRead reg).WellFormed := by
  unfold decodeRead; split <;> rfl

theorem decodeRead_isWrite (reg : BitVec 4) : (decodeRead reg).isWrite = false := by
  unfold decodeRead; split <;> rfl

theorem encode_decodeRead (reg : BitVec 4) : encode (decodeRead reg) = assemble (.rd reg) := by
  revert reg; decide

theorem decodeWrite_wellFormed (reg : BitVec 4) (d : Word) : (decodeWrite reg d).WellFormed := by
  unfold decodeWrite; split <;> rfl

theorem decodeWrite_isWrite (reg : BitVec 4) (d : Word) : (decodeWrite reg d).isWrite = true := by
  unfold decodeWrite; split <;> rfl

theorem encode_decodeWrite (reg : BitVec 4) (d : Word) : encode (decodeWrite reg d) = assemble (.wr reg d) := by
  obtain ⟨k⟩ := reg
  fin_cases k <;> rfl

/-! The wdata the decoder keeps of a reserved word (R80, R84). -/

theorem reservedOperandOk_writeData (w : Bool) (d : Word) : reservedOperandOk w (writeData w d) = true := by
  cases w <;> rfl

theorem writeData_write {w : Bool} (d : Word) (h : w = true) : writeData w d = d := by
  rw [h]; rfl

/-- Settles O2: in each case of the decoder the access keeps W, every bit of the word, and a write's wdata. -/
theorem encodeOfDecodeIsTheWord : Obligations.EncodeOfDecodeIsTheWord := by
  rintro ⟨haw, d⟩
  rcases decode_cases haw d with ⟨rest, hword, e⟩ | ⟨rest, hword, e⟩ | ⟨rest, hword, e⟩ | ⟨reg, hw, hword, e⟩ |
    ⟨reg, hw, hword, e⟩ <;> rw [e]
  · exact ⟨reservedOperandOk_writeData _ d, hword, writeData_write d, rfl⟩
  · exact ⟨reservedOperandOk_writeData _ d, hword, writeData_write d, rfl⟩
  · exact ⟨reservedOperandOk_writeData _ d, hword, writeData_write d, rfl⟩
  · rw [encode_decodeRead]
    exact ⟨decodeRead_wellFormed reg, hword, fun h => absurd (hw.symm.trans h) (by decide),
      (decodeRead_isWrite reg).trans hw.symm⟩
  · rw [encode_decodeWrite]
    exact ⟨decodeWrite_wellFormed reg d, hword, fun _ => rfl, (decodeWrite_isWrite reg d).trans hw.symm⟩

/-- Settles O4: the decoder runs on each word; a read's wdata is dropped (R84). -/
theorem writtenOutWordsDecode : Obligations.WrittenOutWordsDecode :=
  ⟨rfl, rfl, rfl, rfl, rfl, rfl, rfl, rfl, rfl⟩

/-! ## The rows of the opcode table (R90) -/

section rows

open Laws.RowMatch

theorem row_matches_encode (i : Instr) : i.row.matches (encode i).haw = true := by
  cases i
  exacts [rdStatus, rdResult, rdHum, rdTemp, rdCfg, rdCmd, rdLastpoll, rdFrameHi, rdFrameCk, rdTimer, rdPhase,
    rdRsvdB, rdRsvdC, rdRsvdD, rdRsvdE, rdRsvdF,
    wrStatus _, wrResult _, wrHum _, wrTemp _, wrCfg _, wrCmd _, wrLastpoll _, wrFrameHi _, wrFrameCk _, wrTimer _,
    wrPhase _, wrRsvdB _, wrRsvdC _, wrRsvdD _, wrRsvdE _, wrRsvdF _,
    rsv6 _ _ _, rsv5 _ _ _, rsv4 _ _ _]

end rows

/-- A word lies in the row of the access it decodes to, since it is that access's word. -/
theorem row_decode_matches (haw : Haw) (d : Word) : (decode ⟨haw, d⟩).row.matches haw = true := by
  obtain ⟨_, hword, _⟩ := encodeOfDecodeIsTheWord ⟨haw, d⟩
  have hrow := row_matches_encode (decode ⟨haw, d⟩)
  rwa [hword] at hrow

theorem row_mem_tableRows (i : Instr) : i.row ∈ tableRows := by
  cases i <;> exact List.mem_of_elem_eq_true rfl

/-- Two rows fix some bit of the word differently. -/
def RowPattern.disagree (r r' : RowPattern) : Bool := r.mask &&& r'.mask &&& (r.pattern ^^^ r'.pattern) != 0

/-- No word lies in two rows that disagree: on the bits that both fix, each pattern is the word's own bits. -/
theorem RowPattern.not_matches_of_disagree {r r' : RowPattern} (hd : r.disagree r' = true) {haw : Haw}
    (h : r.matches haw = true) : r'.matches haw = false := by
  by_contra h'
  have hr : haw &&& r.mask = r.pattern := eq_of_beq h
  have hr' : haw &&& r'.mask = r'.pattern := eq_of_beq (Bool.of_not_eq_false h')
  refine absurd ?_ (bne_iff_ne.mp hd)
  rw [← hr, ← hr']
  have hbit : ∀ x m m' : Bool, (m && m' && ((x && m) ^^ (x && m'))) = false := by decide
  exact BitVec.eq_of_getElem_eq fun i hi => by simpa using hbit haw[i] r.mask[i] r'.mask[i]

theorem tableRows_pairwise_disagree : tableRows.Pairwise fun r r' => r.disagree r' = true := by decide

/-- Of rows that disagree pairwise, a word that lies in one lies in no other. -/
theorem length_filter_matches_eq_one {rows : List RowPattern} (hd : rows.Pairwise fun r r' => r.disagree r' = true)
    {haw : Haw} {r : RowPattern} (hr : r ∈ rows) (hm : r.matches haw = true) :
    (rows.filter fun r => r.matches haw).length = 1 := by
  induction rows with
  | nil => cases hr
  | cons x rows ih =>
    obtain ⟨hx, hrows⟩ := List.pairwise_cons.mp hd
    cases hxm : x.matches haw with
    | true =>
      have hnone : rows.filter (fun r => r.matches haw) = [] :=
        List.filter_eq_nil_iff.mpr fun y hy => by simp [RowPattern.not_matches_of_disagree (hx y hy) hxm]
      rw [List.filter_cons, if_pos hxm, hnone, List.length_singleton]
    | false =>
      have hne : r ≠ x := fun e => by rw [e, hxm] at hm; cases hm
      rw [List.filter_cons, if_neg (by simp [hxm])]
      exact ih hrows (List.mem_of_ne_of_mem hne hr)

/-- Settles O3: the rows disagree pairwise, and the access of every word has a row that the word lies in. -/
theorem everyWordLiesInOneRow : Obligations.EveryWordLiesInOneRow :=
  ⟨rfl, fun haw => ⟨length_filter_matches_eq_one tableRows_pairwise_disagree (row_mem_tableRows (decode ⟨haw, 0⟩))
    (row_decode_matches haw 0), row_decode_matches haw⟩⟩

end Sys2Proof

namespace Sys2Proof.Machine

/-! ## The pseudo-instructions (R87) -/

/-- The loop test of WAIT_DONE looks at BUSY, bit 0 of STATUS (10_state.md R42). -/
theorem waitDoneRepeats_statusWord (b : Block) : waitDoneRepeats b.statusWord = b.busy := by
  rw [waitDoneRepeats, Block.statusWord, BitVec.getLsbD_setWidth, BitVec.getLsbD_append]
  simp

theorem setCfg_wdata_toNat (signSrc sepErrStop : Bool) :
    (assemble (.setCfg signSrc sepErrStop)).wdata.toNat = 2 * sepErrStop.toNat + signSrc.toNat := by
  cases signSrc <;> cases sepErrStop <;> rfl

/-- Settles O5: each line is a word of the encoding, and WAIT_DONE tests BUSY. -/
theorem pseudoInstructionsExpand : Obligations.PseudoInstructionsExpand := by
  refine ⟨⟨rfl, rfl⟩, fun signSrc sepErrStop => ?_, rfl, rfl, fun s t h => ?_⟩
  · exact ⟨_, decode_of_write 0x84 _ rfl rfl rfl rfl, setCfg_wdata_toNat signSrc sepErrStop⟩
  · cases h
    change waitDoneRepeats s.block.statusWord = true ↔ _
    rw [waitDoneRepeats_statusWord, Block.busy_eq_true_iff]

/-! ## Reserved accesses (R82, 44_register_access.md R204) -/

/-- The word of a register access has RSV = 000 (R83). -/
theorem hawRsv_register (w : Bool) (reg : BitVec 4) : hawRsv (BitVec.ofBool w ++ 0b000#3 ++ reg) = 0 := by
  revert w reg; decide

/-- Every word with RSV other than 000 is a reserved access of its direction. -/
theorem exec_decode_reserved {haw : Haw} (h : hawRsv haw ≠ 0) (d : Word) (s : State) :
    exec (decode ⟨haw, d⟩) s = reservedAccess (hawW haw) s := by
  rcases decode_cases haw d with ⟨rest, _, e⟩ | ⟨rest, _, e⟩ | ⟨rest, _, e⟩ | ⟨reg, _, hword, _⟩ | ⟨reg, _, hword, _⟩
  · rw [e]; rfl
  · rw [e]; rfl
  · rw [e]; rfl
  · exact absurd (hword ▸ hawRsv_register false reg) h
  · exact absurd (hword ▸ hawRsv_register true reg) h

/-- Settles O21: every reserved word and every reserved form is one shared access, which looks only at W. -/
theorem reservedAccessesHaveNoEffect : Obligations.ReservedAccessesHaveNoEffect := by
  refine ⟨fun haw d s h => ⟨fun hw => ?_, fun hw => ?_⟩, fun s d => ⟨fun r => ⟨rfl, rfl⟩, fun r => ⟨rfl, rfl⟩,
    fun r => ⟨rfl, rfl⟩⟩⟩
  · rw [exec_decode_reserved h, show hawW haw = false from hw, reservedAccess_read]
  · rw [exec_decode_reserved h, show hawW haw = true from hw, reservedAccess_write]

end Sys2Proof.Machine
end

