-- ==== Sys2Proof/Proofs/PollGate.lean ====
section
/-! WR_CMD and the rate gate: what a POLL does in each of its cases, and that only an accepted one leaves IDLE
(40_poll_gate.md R100 to R106). -/

namespace Sys2Proof.Machine

/-! ## The POLL of the block -/

section poll

variable {p : Params} {b : Block} {now : Seconds}

/-- The gate rejects exactly where a transaction is recorded and the interval since it is too short (R102). -/
theorem Block.gateAllows_eq_false_iff :
    b.gateAllows p now = false ↔ b.lastValid = true ∧ now.toNat < b.lastPoll.toNat + p.pollIntervalS := by
  rw [← Bool.not_eq_true, gateAllows_iff, not_or, Bool.not_eq_false, not_le]

theorem Block.poll_busy (h : b.phase ≠ .idle) : b.poll p now = b :=
  not_not.mp fun hne => h (idle_of_poll_ne hne)

theorem Block.poll_allowed (hi : b.phase = .idle) (hg : b.gateAllows p now = true) :
    b.poll p now = b.acceptPoll now := by
  rcases Block.poll_cases p now b with ⟨h, _⟩ | ⟨_, _, e⟩ | ⟨_, h, _⟩
  · exact absurd hi h
  · exact e
  · exact absurd (hg.symm.trans h) (by decide)

theorem Block.poll_rejected (hi : b.phase = .idle) (hg : b.gateAllows p now = false) :
    b.poll p now = b.rejectPoll := by
  rcases Block.poll_cases p now b with ⟨h, _⟩ | ⟨_, h, _⟩ | ⟨_, _, e⟩
  · exact absurd hi h
  · exact absurd (h.symm.trans hg) (by decide)
  · exact e

/-- A POLL that leaves IDLE has passed the gate. -/
theorem Block.poll_leaves_idle (hi : b.phase = .idle) (h : (b.poll p now).phase ≠ .idle) :
    b.gateAllows p now = true ∧ b.poll p now = b.acceptPoll now := by
  cases hg : b.gateAllows p now with
  | true => exact ⟨rfl, poll_allowed hi hg⟩
  | false => exact absurd (by rw [poll_rejected hi hg, rejectPoll_phase, hi]) h

end poll

theorem Block.writeCfg_phase (d : Word) (b : Block) : (b.writeCfg d).phase = b.phase := by
  by_cases h : b.phase = .idle
  · rw [writeCfg_idle d h]
  · rw [writeCfg_busy d h]

/-! ## WR_CMD -/

/-- A write whose effect leaves this block as it is has no effect, with rst asserted or released. -/
theorem hostWrite_fixed {f : Block → Block} {s : State} (h : f s.block = s.block) : hostWrite f s = .next s := by
  rcases Bool.eq_false_or_eq_true s.rst with hr | hr
  · exact hostWrite_held f s hr
  · rw [hostWrite_free f s hr, h]

/-- Settles O24: without wdata[0] there is no POLL, and a busy block ignores one. -/
theorem pollIgnored : Obligations.PollIgnored := by
  refine fun d s => ⟨fun hd => hostWrite_fixed (if_neg (ne_true_of_eq_false hd)), fun hbusy => hostWrite_fixed ?_⟩
  rw [Block.poll_busy hbusy, ite_self]

section wrCmd

variable {d : Word} {s : State} (hrst : s.rst = false) (hd : d.getLsbD 0 = true)

include hrst hd

theorem exec_wrCmd_poll : exec (.wrCmd d) s = .next { s with block := s.block.poll params s.nowS } :=
  (hostWrite_free _ s hrst).trans (by rw [if_pos (show wdataPoll d = true from hd)])

theorem exec_wrCmd_accepted (hi : s.block.phase = .idle)
    (hg : s.block.lastValid = false ∨ s.block.lastPoll.toNat + 2 ≤ s.nowS.toNat) :
    exec (.wrCmd d) s = .next { s with block := s.block.acceptPoll s.nowS } := by
  rw [exec_wrCmd_poll hrst hd, Block.poll_allowed hi ((Block.gateAllows_iff ..).mpr hg)]

theorem exec_wrCmd_rejected (hi : s.block.phase = .idle) (hv : s.block.lastValid = true)
    (hnow : s.nowS.toNat < s.block.lastPoll.toNat + 2) :
    exec (.wrCmd d) s = .next { s with block := s.block.rejectPoll } := by
  rw [exec_wrCmd_poll hrst hd, Block.poll_rejected hi (Block.gateAllows_eq_false_iff.mpr ⟨hv, hnow⟩)]

end wrCmd

/-- Settles O25: the difference on integers is below 2 exactly where now_s is before last_poll + 2. -/
theorem pollRejectedByTheGate : Obligations.PollRejectedByTheGate := fun _ _ hrst hd hi hv hnow =>
  exec_wrCmd_rejected hrst hd hi hv (by omega)

/-- Settles O26: the difference on integers is at least 2 exactly where now_s has reached last_poll + 2. -/
theorem pollAcceptedStartsATransaction : Obligations.PollAcceptedStartsATransaction := fun _ _ hrst hd hi hg =>
  exec_wrCmd_accepted hrst hd hi (hg.imp_right fun _ => by omega)

/-- Settles O27: after reset no transaction is recorded; a rejection leaves last_poll; and no 32-bit now_s reaches
0xFFFFFFFE + 2. -/
theorem gateCornerCases : Obligations.GateCornerCases := by
  intro s hrst hi
  refine ⟨fun hreset => ?_, fun hv hnow => ?_, fun hv hlast hnow => ?_, fun hv hlast => ?_⟩
  · exact ⟨_, exec_wrCmd_accepted hrst rfl hi (.inl (by rw [hreset]; rfl)), rfl⟩
  · refine ⟨_, exec_wrCmd_rejected hrst rfl hi hv (by omega), hi, fun later hlater => ?_⟩
    exact ⟨_, exec_wrCmd_accepted hrst rfl hi (.inr hlater.ge), rfl⟩
  · exact ⟨_, exec_wrCmd_rejected hrst rfl hi hv (by rw [hlast, hnow]; decide), hi, rfl⟩
  · refine ⟨_, exec_wrCmd_rejected hrst rfl hi hv ?_, hi, rfl⟩
    rw [hlast]
    exact s.nowS.isLt

/-! ## Leaving IDLE -/

/-- Settles O52: ticks, CFG writes, resets and rejected POLLs stay in IDLE. -/
theorem onlyAnAcceptedPollLeavesIdle : Obligations.OnlyAnAcceptedPollLeavesIdle := by
  intro s t h hi ht
  rcases step_next_cases h with
    ⟨v, _, _, ⟨_, hb⟩ | ⟨_, hb⟩⟩ | ⟨haw, d, now, he, _, hb | ⟨x, _, _, hb⟩ | ⟨x, hx, hrst, hpoll, hb⟩⟩ |
    ⟨_, _, hb⟩ | ⟨_, _, hb⟩
  · exact absurd (hb ▸ hi) ht
  · rw [Block.tick_idle hi] at hb
    injection hb with hb
    exact absurd (by rw [← hb, Block.timerAdvance_phase, hi]) ht
  · exact absurd (hb ▸ hi) ht
  · exact absurd (by rw [hb, Block.writeCfg_phase, hi]) ht
  · rw [hb] at ht ⊢
    obtain ⟨hgate, haccept⟩ := Block.poll_leaves_idle hi ht
    rw [haccept]
    exact ⟨haw, d, now, he, ⟨x, hx, hpoll⟩, hrst, (Block.gateAllows_iff ..).mp hgate, rfl, rfl⟩
  · exact absurd (by rw [hb]; rfl) ht
  · exact absurd (hb ▸ hi) ht

end Sys2Proof.Machine
end

