-- ==== Sys2Proof/Proofs/Handshake.lean ====
section
/-! The ticks of IDLE, REQ_LOW and the three handshake phases, and runs of ticks inside one phase (41_handshake.md
R120 to R129). -/

namespace Sys2Proof.Machine

/-! ## A tick event (R120; 70_reset_and_hazards.md R260) -/

section tickEvent

variable {v : Level} {s : State}

theorem tickEvent_held (h : s.rst = true) : tickEvent v s = .next s := if_pos h

theorem tickEvent_ok {b : Block} (h : s.rst = false) (hb : s.block.tick params v = .ok b) :
    tickEvent v s = .next { s with block := b } := by
  simp [tickEvent, h, hb]

theorem tickEvent_error {r : Refusal} (h : s.rst = false) (hr : s.block.tick params v = .error r) :
    tickEvent v s = .refused r := by
  simp [tickEvent, h, hr]

end tickEvent

/-- Settles O7: a listed tick is delivered as a tick event, which looks at rst and then at the decoder's answer. -/
theorem stepTicksTheDecoder : Obligations.StepTicksTheDecoder := by
  intro s v rest h
  rw [step_listed s _ rest h]
  exact ⟨fun hrst => tickEvent_held hrst, fun _ hrst hb => tickEvent_ok hrst hb,
    fun _ hrst hr => tickEvent_error hrst hr⟩

/-! ## Runs inside one phase -/

/-- A run whose k-th tick takes the k-th block of a sequence to the next one. -/
theorem runTicks_of_ticks {f : Nat → Block} {xs : List Level}
    (h : ∀ k (hk : k < xs.length), (f k).tick params xs[k] = .ok (f (k + 1))) :
    runTicks xs (f 0) = .ok (f xs.length) := by
  induction xs generalizing f with
  | nil => rfl
  | cons x xs ih =>
    have hx : (f 0).tick params x = .ok (f 1) := h 0 (Nat.zero_lt_succ _)
    rw [runTicks_cons_ok hx]
    exact ih (f := fun k => f (k + 1)) fun k hk => h (k + 1) (Nat.succ_lt_succ hk)

/-- The timer's advance of `n` ticks: a running timer counts on modulo 2^16 (10_state.md R23). -/
def Block.timerAdvanceBy (n : Nat) (b : Block) : Block :=
  { b with tmrCnt := if b.tmrRun then b.tmrCnt + BitVec.ofNat 16 n else b.tmrCnt }

theorem Block.timerAdvanceBy_zero (b : Block) : b.timerAdvanceBy 0 = b := by
  simp [Block.timerAdvanceBy]

theorem Block.timerAdvance_timerAdvanceBy (n : Nat) (b : Block) :
    (b.timerAdvanceBy n).timerAdvance = b.timerAdvanceBy (n + 1) := by
  cases hr : b.tmrRun <;> simp [Block.timerAdvanceBy, Block.timerAdvance, hr, BitVec.ofNat_add, BitVec.add_assoc]

/-! ## IDLE (R121) -/

/-- Settles O32: an IDLE tick is the timer's advance, and so the k-th one leads from k advances to k + 1. -/
theorem idleTicksOnlyAdvanceTheTimer : Obligations.IdleTicksOnlyAdvanceTheTimer := by
  refine ⟨fun b v hp => Block.tick_idle hp, fun b samples hp => ?_⟩
  have hrun : runTicks samples (b.timerAdvanceBy 0) = .ok (b.timerAdvanceBy samples.length) :=
    runTicks_of_ticks (f := fun k => b.timerAdvanceBy k) fun k _ => by
      rw [Block.tick_idle (b := b.timerAdvanceBy k) hp, Block.timerAdvance_timerAdvanceBy]
  rwa [Block.timerAdvanceBy_zero] at hrun

/-! ## REQ_LOW (R122, R123) -/

section reqLow

variable {b : Block} {v : Level} (hp : b.phase = .reqLow)

include hp

theorem Block.tick_reqLow_hold (hn : (b.holdCnt + 1).toNat ≠ 1000) :
    b.tick params v = .ok { b.timerAdvance with holdCnt := b.holdCnt + 1 } :=
  (Block.tick_reqLow hp).trans (congrArg _ (if_neg hn))

theorem Block.tick_reqLow_arm (hn : (b.holdCnt + 1).toNat = 1000) :
    b.tick params v = .ok (Block.releaseAndArm { b with holdCnt := 1000 }) := by
  have hc : b.holdCnt + 1 = 1000 := BitVec.eq_of_toNat_eq hn
  rw [← hc]
  exact (Block.tick_reqLow hp).trans (congrArg _ (if_pos hn))

end reqLow

/-- Settles O33: the tick counts the hold, and the count of 1000 releases the line and arms the timer. -/
theorem requestLowTick : Obligations.RequestLowTick :=
  fun _ _ hp => ⟨Block.tick_reqLow_hold hp, Block.tick_reqLow_arm hp⟩

/-- The block after `n` ticks of the request, counted from its acceptance (R122). -/
def Block.requested (n : Nat) (b : Block) : Block := { b.timerAdvanceBy n with holdCnt := BitVec.ofNat 11 n }

theorem Block.requested_zero_acceptPoll (now : Seconds) (b : Block) :
    (b.acceptPoll now).requested 0 = b.acceptPoll now := by
  rw [Block.requested, Block.timerAdvanceBy_zero]
  rfl

theorem Block.holdCnt_requested {n : Nat} (h : n < 1000) (b : Block) : (b.requested n).holdCnt.toNat = n :=
  Nat.mod_eq_of_lt (by omega)

theorem Block.holdCnt_requested_add_one {n : Nat} (h : n < 1000) (b : Block) :
    ((b.requested n).holdCnt + 1).toNat = n + 1 := by
  have hn := Block.holdCnt_requested h b
  bv_omega

theorem Block.tick_requested {b : Block} {v : Level} {n : Nat} (hp : b.phase = .reqLow) (h : n < 999) :
    (b.requested n).tick params v = .ok (b.requested (n + 1)) := by
  have hn := Block.holdCnt_requested_add_one (show n < 1000 by omega) b
  rw [Block.tick_reqLow_hold (b := b.requested n) hp (by omega)]
  unfold Block.requested
  rw [← Block.timerAdvance_timerAdvanceBy, BitVec.ofNat_add]
  rfl

/-- Fewer than 1000 ticks after an acceptance the request still holds the line. -/
theorem runTicks_acceptPoll {xs : List Level} (h : xs.length < 1000) (b : Block) (now : Seconds) :
    runTicks xs (b.acceptPoll now) = .ok ((b.acceptPoll now).requested xs.length) := by
  have hrun : runTicks xs ((b.acceptPoll now).requested 0) = .ok ((b.acceptPoll now).requested xs.length) :=
    runTicks_of_ticks (f := fun k => (b.acceptPoll now).requested k) fun k hk => Block.tick_requested rfl (by omega)
  rwa [Block.requested_zero_acceptPoll] at hrun

/-- Settles O34: the request holds for 999 ticks, and the last of the 1000 arms. -/
theorem requestLowLastsAThousandTicks : Obligations.RequestLowLastsAThousandTicks := by
  intro b now samples hlen
  refine ⟨fun n hn => ?_, ?_⟩
  · have htake : (samples.take n).length = n := List.length_take_of_le (by omega)
    refine ⟨_, runTicks_acceptPoll (by omega) b now, rfl, rfl, rfl, ?_⟩
    rw [htake, Block.holdCnt_requested hn]
  · have htake : (samples.take 999).length = 999 := List.length_take_of_le (by omega)
    obtain ⟨v, hv⟩ := List.length_eq_one_iff.mp (show (samples.drop 999).length = 1 by rw [List.length_drop, hlen])
    have hlast := Block.tick_reqLow_arm (b := (b.acceptPoll now).requested 999) (v := v) rfl
      (Block.holdCnt_requested_add_one (by decide) _)
    refine ⟨Block.releaseAndArm { (b.acceptPoll now).requested 999 with holdCnt := 1000 }, ?_,
      rfl, rfl, rfl, rfl, rfl, rfl, rfl⟩
    rw [← List.take_append_drop 999 samples, hv, runTicks_append_ok (runTicks_acceptPoll (by omega) b now), htake]
    exact runTicks_cons_ok hlast

/-! ## The handshake phases (R124 to R127) -/

/-- One tick of a phase that waits at `level` for a duration in a closed window and then goes on to the phase `next`. -/
theorem Block.tick_of_wait {b : Block} {level other : Level} {lo hi : Nat} {tmo err : ResultCode} {stop : Bool}
    {next : Phase} (hne : other ≠ level)
    (h : ∀ v, b.tick params v = b.timerAdvance.wait params v level (closedWindow lo hi) tmo err stop
      (fun _ c => .ok (c.enterTimed next))) :
    (b.tc.toNat ≤ 300 → b.tick params level = .ok { b with tmrCnt := b.tc }) ∧
    (300 < b.tc.toNat → b.tick params level = .ok (Block.endTransaction tmo true { b with tmrCnt := b.tc })) ∧
    (lo ≤ b.tc.toNat ∧ b.tc.toNat ≤ hi → b.tick params other = .ok { b with tmrCnt := 0, phase := next }) ∧
    (b.tc.toNat < lo ∨ hi < b.tc.toNat →
      b.tick params other = .ok (Block.endTransaction err stop { b with tmrCnt := b.tc })) := by
  refine ⟨fun ht => ?_, fun ht => ?_, fun ht => ?_, fun ht => ?_⟩
  · exact (h level).trans (Block.wait_stay rfl ht)
  · exact (h level).trans (Block.wait_timeout rfl ht)
  · exact (h other).trans (Block.wait_pass hne (closedWindow_pass ht))
  · exact (h other).trans (Block.wait_fail hne (closedWindow_fail (by rw [Block.elapsed_timerAdvance]; omega)))

/-- Settles O36: AWAIT_ACK waits at High for t1 in [10, 200]. -/
theorem awaitAckTick : Obligations.AwaitAckTick :=
  fun _ hp => Block.tick_of_wait (by decide) fun _ => Block.tick_awaitAck hp

/-- Settles O37: ACK_LOW waits at Low for t2 in [70, 110]. -/
theorem ackLowTick : Obligations.AckLowTick :=
  fun _ hp => Block.tick_of_wait (by decide) fun _ => Block.tick_ackLow hp

/-- Settles O38: ACK_HIGH waits at High for t3 in [70, 100]. -/
theorem ackHighTick : Obligations.AckHighTick :=
  fun _ hp => Block.tick_of_wait (by decide) fun _ => Block.tick_ackHigh hp

/-! ## Measured durations (R128, R129) -/

section measured

variable {b : Block} (hrun : b.tmrRun = true) (h0 : b.tmrCnt = 0)

include hrun h0

theorem Block.timerAdvanceBy_from_zero (n : Nat) : b.timerAdvanceBy n = { b with tmrCnt := BitVec.ofNat 16 n } := by
  simp [Block.timerAdvanceBy, hrun, h0]

/-- The tick after `n` ticks from the timer's start works with the count n + 1. -/
theorem Block.tc_timerAdvanceBy {n : Nat} (hn : n ≤ 300) : (b.timerAdvanceBy n).tc.toNat = n + 1 := by
  have htc : (b.timerAdvanceBy n).tc = (b.timerAdvanceBy n).timerAdvance.tmrCnt := rfl
  rw [htc, Block.timerAdvance_timerAdvanceBy, Block.timerAdvanceBy_from_zero hrun h0]
  exact Nat.mod_eq_of_lt (by omega)

/-- A timed phase stays for up to 300 ticks at the level it waits on. -/
theorem runTicks_awaited (hp : b.phase.timed = true) {n : Nat} (hn : n ≤ 300) :
    runTicks (List.replicate n b.phase.awaited) b = .ok (b.timerAdvanceBy n) := by
  have hticks := runTicks_of_ticks (f := fun k => b.timerAdvanceBy k) (xs := List.replicate n b.phase.awaited)
    fun k hk => by
      rw [List.length_replicate] at hk
      have htc := Block.tc_timerAdvanceBy hrun h0 (show k ≤ 300 by omega)
      rw [List.getElem_replicate, ← Block.timerAdvance_timerAdvanceBy]
      exact Block.tick_stay (b := b.timerAdvanceBy k) hp (by omega)
  rwa [Block.timerAdvanceBy_zero, List.length_replicate] at hticks

end measured

/-- Settles O43: the phase stays for 300 ticks, and the 301st works with the count 301, past the timeout. -/
theorem measuredDurationIsTheSegmentLength : Obligations.MeasuredDurationIsTheSegmentLength := by
  intro b hp hrun h0
  refine ⟨fun n hn => ?_, ?_⟩
  · rw [runTicks_awaited hrun h0 hp hn, Block.timerAdvanceBy_from_zero hrun h0]
  · have htc := Block.tc_timerAdvanceBy hrun h0 (n := 300) le_rfl
    have hend := Block.tick_timeout (b := b.timerAdvanceBy 300) hp (by omega)
    rw [Block.timerAdvance_timerAdvanceBy, Block.timerAdvanceBy_from_zero hrun h0 301] at hend
    rw [List.replicate_succ' (n := 300), runTicks_append_ok (runTicks_awaited hrun h0 hp le_rfl)]
    exact runTicks_cons_ok hend

end Sys2Proof.Machine
end

