-- ==== Sys2Proof/Proofs/BitDecode.lean ====
section
/-! The pulse classifier, the ticks of BIT_SEP and BIT_HIGH, and what can change the frame and bit_idx (42_bit_decode.md
R150 to R157). -/

namespace Sys2Proof.Machine

/-! ## Classify (R154) -/

/-- A duration stands for no bit exactly where it lies in neither interval. -/
theorem classify_eq_none_iff (t : Nat) :
    classify params t = none ↔ ¬(16 ≤ t ∧ t ≤ 34) ∧ ¬(66 ≤ t ∧ t ≤ 79) := by
  rw [← classify_eq_some_false_iff, ← classify_eq_some_true_iff]
  rcases classify params t with _ | _ | _ <;> decide

theorem classify_eq_none_of_gap {t : Nat} (h : t ≤ 15 ∨ (35 ≤ t ∧ t ≤ 65) ∨ 80 ≤ t) : classify params t = none :=
  (classify_eq_none_iff t).mpr (by omega)

theorem classify_eq_some_of_pulse {t : Nat} {bit : Bool}
    (h : (16 ≤ t ∧ t ≤ 34 ∧ bit = false) ∨ (66 ≤ t ∧ t ≤ 79 ∧ bit = true)) : classify params t = some bit := by
  rcases h with ⟨hlo, hhi, rfl⟩ | ⟨hlo, hhi, rfl⟩
  · exact (classify_eq_some_false_iff t).mpr ⟨hlo, hhi⟩
  · exact (classify_eq_some_true_iff t).mpr ⟨hlo, hhi⟩

/-- Settles O42: the two intervals and the gaps around them. -/
theorem classifyTable : Obligations.ClassifyTable := fun t =>
  ⟨(classify_eq_some_false_iff t).mpr, (classify_eq_some_true_iff t).mpr, classify_eq_none_of_gap⟩

/-! ## BIT_SEP (R150, R151) -/

/-- Settles O39: BIT_SEP waits at Low for a separator in [40, 70], and only the window failure looks at
cfg_sep_err_stop. -/
theorem bitSeparatorTick : Obligations.BitSeparatorTick :=
  fun _ hp => Block.tick_of_wait (by decide) fun _ => Block.tick_bitSep hp

/-! ## The decoded bit (R152, R153) -/

/-- Shifting a bit in, on integers: the byte's own top bit is lost. -/
theorem shiftIn_eq_ofNat (byte : Byte) (bit : Bool) :
    shiftIn byte bit = BitVec.ofNat 8 (2 * byte.toNat + bit.toNat) := by
  revert byte bit
  decide

section takeBit

variable {b : Block} {bit : Bool} {f : Frame} (hf : appendBit b.bitIdx bit b.frame = .ok f)

include hf

theorem Block.takeBit_next (hk : b.bitIdx.toNat < 39) :
    b.takeBit params bit = .ok (Block.enterTimed .bitSep { b with frame := f, bitIdx := b.bitIdx + 1 }) := by
  obtain ⟨g, hg, ⟨hlast, _⟩ | ⟨_, e⟩⟩ := Block.takeBit_cases b bit (by omega)
  · omega
  · cases hf.symm.trans hg
    exact e

theorem Block.takeBit_last (hk : b.bitIdx.toNat = 39) :
    b.takeBit params bit = .ok (Block.finalize params { b with frame := f, bitIdx := 40 }) := by
  have hcount : b.bitIdx + 1 = 40 := by bv_omega
  obtain ⟨g, hg, ⟨_, e⟩ | ⟨hnext, _⟩⟩ := Block.takeBit_cases b bit (by omega)
  · cases hf.symm.trans hg
    rwa [hcount] at e
  · omega

end takeBit

/-! ## BIT_HIGH (R152) -/

/-- A pulse that stands for a bit passes the wait. -/
theorem Block.tick_bitHigh_pass {b : Block} {bit : Bool} (hp : b.phase = .bitHigh)
    (hbit : classify params b.tc.toNat = some bit) : b.tick params low = b.timerAdvance.takeBit params bit :=
  (Block.tick_bitHigh hp).trans (Block.wait_pass (by decide) hbit)

/-- Settles O40: BIT_HIGH waits at High, and a Low ends the pulse: it stands for a bit, which is appended and counted,
or for none. -/
theorem bitPulseTick : Obligations.BitPulseTick := by
  refine fun b hp => ⟨fun ht => ?_, fun ht => ?_, fun ht => ?_, fun bit h ht => ?_⟩
  · exact (Block.tick_bitHigh hp).trans (Block.wait_stay rfl ht)
  · exact (Block.tick_bitHigh hp).trans (Block.wait_timeout rfl ht)
  · exact (Block.tick_bitHigh hp).trans (Block.wait_fail (by decide) (classify_eq_none_of_gap ht))
  · have hf := appendBit_in b.bitIdx bit b.frame h
    rw [shiftIn_eq_ofNat] at hf
    rw [Block.tick_bitHigh_pass hp (classify_eq_some_of_pulse ht)]
    exact ⟨Block.takeBit_next (b := b.timerAdvance) hf, Block.takeBit_last (b := b.timerAdvance) hf⟩

/-! ## What changes the frame and bit_idx (R153, R157; 10_state.md R25, R26) -/

section finalize

variable (p : Params) (b : Block)

@[simp] theorem Block.finalize_frame : (b.finalize p).frame = b.frame := by
  rcases Block.finalize_cases p b with ⟨_, e⟩ | ⟨_, e⟩ <;> simp [e]

@[simp] theorem Block.finalize_bitIdx : (b.finalize p).bitIdx = b.bitIdx := by
  rcases Block.finalize_cases p b with ⟨_, e⟩ | ⟨_, e⟩ <;> simp [e]

end finalize

/-- The bits received stay as they are. -/
def Block.BitsKept (b c : Block) : Prop := c.frame = b.frame ∧ c.bitIdx = b.bitIdx

/-- BIT_HIGH appends one bit and counts it. -/
def Block.BitAppended (b c : Block) : Prop :=
  b.phase = .bitHigh ∧ c.bitIdx = b.bitIdx + 1 ∧ ∃ bit, appendBit b.bitIdx bit b.frame = .ok c.frame

/-- An accepted POLL clears the bits. -/
def Block.BitsCleared (b c : Block) : Prop :=
  b.phase = .idle ∧ c.phase = .reqLow ∧ c.bitIdx = 0 ∧ c.frame = #v[0x00, 0x00, 0x00, 0x00, 0x00]

/-- A tick leaves the bits or appends one: every failure keeps those received so far (R157). -/
theorem TickStep.bits_cases {v : Level} {b c : Block} (h : TickStep v b c) : b.BitsKept c ∨ b.BitAppended c := by
  cases h with
  | nextBit hp _ bit _ _ f hf => exact .inr ⟨hp, rfl, bit, hf⟩
  | lastBit hp _ bit _ _ f hf =>
    refine .inr ⟨hp, Block.finalize_bitIdx _ _, bit, ?_⟩
    rwa [Block.finalize_frame]
  | _ => exact .inl ⟨rfl, rfl⟩

theorem BlockStep.bits_cases {b c : Block} (h : BlockStep b c) :
    b.BitsKept c ∨ b.BitsCleared c ∨ b.BitAppended c := by
  cases h with
  | tick h => exact h.bits_cases.imp_right .inr
  | accept hi => exact .inr (.inl ⟨hi, rfl, rfl, rfl⟩)
  | same | configure | reject => exact .inl ⟨rfl, rfl⟩

/-- Settles O57: without a reset, a step that does not keep the bits clears them or appends one. -/
theorem frameChangesOnlyByAppendOrAcceptance : Obligations.FrameChangesOnlyByAppendOrAcceptance := by
  intro s t h hne hchange
  rcases step_block_cases h with ⟨he, _⟩ | ⟨_, hb, _⟩
  · exact absurd he hne
  · rcases hb.bits_cases with ⟨hframe, hidx⟩ | hrest
    · exact absurd hchange (not_or.mpr ⟨not_not.mpr hframe, not_not.mpr hidx⟩)
    · exact hrest

end Sys2Proof.Machine
end

