-- ==== Sys2Proof/Proofs/Finalize.lean ====
section
/-! Finalize: the checksum, what it detects, and the converted values (43_finalize_checksum_convert.md R170 to R177). -/

namespace Sys2Proof.Machine

/-! ## The checksum (R171, R172) -/

/-- A frame is valid where its first four bytes add up to the fifth modulo 256. -/
theorem checksum_eq_iff (f : Frame) :
    checksum params f = f[4] ↔ (f[0].toNat + f[1].toNat + f[2].toNat + f[3].toNat) % 256 = f[4].toNat := by
  rw [← BitVec.toNat_inj, checksum_toNat]

/-- Settles O45: Finalize goes by the checksum, and the reading it stores is the frame's. -/
theorem finalizeByChecksum : Obligations.FinalizeByChecksum :=
  fun b => ⟨fun h => if_pos ((checksum_eq_iff b.frame).mpr h), fun h => if_neg (mt (checksum_eq_iff b.frame).mp h)⟩

theorem checksum_eq_add (f : Frame) : checksum params f = f[0] + f[1] + f[2] + f[3] := by
  apply BitVec.eq_of_toNat_eq
  rw [checksum_toNat]
  simp only [BitVec.toNat_add]
  omega

/-- Another data byte moves the checksum by the difference. -/
theorem checksum_set_data (f : Frame) (i : Fin 4) (x : Byte) :
    checksum params (f.set i.val x) = checksum params f + (x - f[i.val]) := by
  rw [checksum_eq_add, checksum_eq_add]
  fin_cases i <;> simp <;> ring

/-- The checksum byte takes no part in the checksum. -/
theorem checksum_set_last (f : Frame) (x : Byte) : checksum params (f.set 4 x) = checksum params f := by
  simp [checksum_eq_add]

/-- Settles O47: the checksum of a frame with one other data byte moves away from the fifth byte, as the fifth byte does
when it is the one changed; two changes that cancel move it back. -/
theorem checksumDetectsOneByte : Obligations.ChecksumDetectsOneByte := by
  refine ⟨fun f i x hf hx => ?_, fun f i j x hij hf => ?_⟩
  · cases i using Fin.lastCases with
    | last =>
      have hlast : checksum params (f.set 4 x) ≠ x := by rw [checksum_set_last, hf]; exact hx.symm
      simpa using hlast
    | cast i =>
      have hmoved : f[4] + (x - f[i.val]) ≠ f[4] := by
        rw [Ne, add_eq_left, sub_eq_zero]; exact hx
      have hfifth : (f.set i.val x)[4] = f[4] := Vector.getElem_set_ne _ _ (by omega)
      rwa [← hf, ← checksum_set_data, hf, ← hfifth] at hmoved
  · have hj : (f.set i.val (f[i.val] + x))[j.val] = f[j.val] :=
      Vector.getElem_set_ne _ _ fun h => hij (Fin.ext h)
    calc checksum params ((f.set i.val (f[i.val] + x)).set j.val (f[j.val] - x))
        _ = checksum params f + (f[i.val] + x - f[i.val]) + (f[j.val] - x - f[j.val]) := by
          rw [checksum_set_data, checksum_set_data, hj]
        _ = f[4] := by rw [hf]; ring

/-! ## The converted values (R173 to R176) -/

/-- Two bytes as one number, the high byte first. -/
theorem toNat_append_byte (hi lo : Byte) : (hi ++ lo : Tenths).toNat = hi.toNat * 256 + lo.toNat := by
  rw [BitVec.toNat_append, ← Nat.shiftLeft_add_eq_or_of_lt lo.isLt, Nat.shiftLeft_eq]

theorem humidity_toNat (f : Frame) : (humidity f).toNat = f[0].toNat * 256 + f[1].toNat := toNat_append_byte _ _

theorem tempMagnitude_toNat (f : Frame) :
    (tempMagnitude params f).toNat = f[2].toNat % 128 * 256 + f[3].toNat := by
  have hmask : (f[2] &&& params.magMask).toNat = f[2].toNat % 128 := Nat.and_two_pow_sub_one_eq_mod _ 7
  rw [tempMagnitude, toNat_append_byte, hmask]

/-- The sign bit of a byte. -/
theorem and_signMask_ne_zero_iff (x : Byte) : ((x &&& params.signMask) != 0) = true ↔ 128 ≤ x.toNat := by
  revert x
  decide

theorem tempNegative_iff (signSrc : Bool) (f : Frame) :
    tempNegative params signSrc f = true ↔ 128 ≤ (if signSrc then f[2].toNat else f[0].toNat) := by
  rw [tempNegative, and_signMask_ne_zero_iff, apply_ite BitVec.toNat]

/-- The 15-bit magnitude is non-negative as a 16-bit integer. -/
theorem tempMagnitude_toInt (f : Frame) : (tempMagnitude params f).toInt = (tempMagnitude params f).toNat :=
  BitVec.toInt_eq_toNat_of_lt (by have := tempMagnitude_lt f; omega)

theorem temperature_toInt (signSrc : Bool) (f : Frame) :
    (temperature params signSrc f).toInt =
      if tempNegative params signSrc f then -((tempMagnitude params f).toNat : Int)
      else ((tempMagnitude params f).toNat : Int) := by
  have hne : tempMagnitude params f ≠ BitVec.intMin 16 := fun h => by
    have hlt := tempMagnitude_lt f
    rw [h] at hlt
    exact absurd hlt (by decide)
  unfold temperature
  split
  · rw [zero_sub, BitVec.toInt_neg_of_ne_intMin hne, tempMagnitude_toInt]
  · exact tempMagnitude_toInt f

/-- Settles O46: with cfg_sign_src = 0 the sign bit is the humidity's top bit. -/
theorem convertedValues : Obligations.ConvertedValues := by
  intro f signSrc
  refine ⟨humidity_toNat f, tempMagnitude_toNat f, ?_, fun hneg => ?_⟩
  · rw [temperature_toInt, tempMagnitude_toNat]
    simp only [tempNegative_iff]
  · have hsign : 128 ≤ f[0].toNat := by
      by_contra hpos
      rw [temperature_toInt, if_neg (mt (tempNegative_iff false f).mp hpos)] at hneg
      omega
    rw [humidity_toNat]
    omega

end Sys2Proof.Machine
end

