-- ==== Sys2Proof/Proofs/LineSegments.lean ====
section
/-! A run of ticks to the end of a transaction, and the line cut into the ticks of one timed phase each (41_handshake.md
R128; 60_exceptions.md R246). -/

namespace Sys2Proof.Machine

/-! ## Runs to the end -/

theorem exists_runTicks_of_append_ok {xs ys : List Level} {b c : Block} (h : runTicks (xs ++ ys) b = .ok c) :
    ∃ d, runTicks xs b = .ok d := by
  rw [runTicks_append] at h
  cases hx : runTicks xs b with
  | ok d => exact ⟨d, rfl⟩
  | error r => rw [hx] at h; cases h

/-- A run that leads to a busy block was busy all along. -/
theorem runTicks_take_busy {xs : List Level} {m : Nat} {b c d : Block} (hc : runTicks xs b = .ok c)
    (busy : c.phase ≠ .idle) (hd : runTicks (xs.take m) b = .ok d) : d.phase ≠ .idle := by
  intro hidle
  rw [← List.take_append_drop m xs, runTicks_append_ok hd] at hc
  exact busy (runTicks_idle hc hidle)

/-- A run to a busy block puts off the end by its ticks. -/
theorem EndsAt.after {xs ys : List Level} {b c d : Block} {n : Nat} (h : EndsAt ys c n d) (hc : runTicks xs b = .ok c)
    (busy : c.phase ≠ .idle) : EndsAt (xs ++ ys) b (xs.length + n) d where
  run := by rw [List.take_length_add_append, runTicks_append_ok hc, h.run]
  idle := h.idle
  first := by
    intro m e hm he
    rcases Nat.le_total m xs.length with hle | hle
    · rw [List.take_append_of_le_length hle] at he
      exact runTicks_take_busy hc busy he
    · obtain ⟨k, rfl⟩ := Nat.exists_eq_add_of_le hle
      rw [List.take_length_add_append, runTicks_append_ok hc] at he
      exact h.first k e (by omega) he

/-- Before its end a run answers a busy block at every tick. -/
theorem EndsAt.busy_before {samples : List Level} {b c : Block} {n m : Nat} (h : EndsAt samples b n c) (hm : m < n) :
    ∃ d, runTicks (samples.take m) b = .ok d ∧ d.phase ≠ .idle := by
  have hrun := h.run
  rw [← List.take_append_drop m (samples.take n), List.take_take, Nat.min_eq_left hm.le] at hrun
  obtain ⟨d, hd⟩ := exists_runTicks_of_append_ok hrun
  exact ⟨d, hd, h.first m d hm hd⟩

/-! ## The line, segment by segment -/

/-- The samples of a timed phase whose segment lasts `d` ticks: its level, and the other level at its last tick. -/
def segment (level : Level) (d : Nat) : List Level := List.replicate (d - 1) level ++ [!level]

/-- The samples of the two timed phases of a bit cell. -/
def cellSegments (c : Nat × Nat) : List Level := segment low c.1 ++ segment high c.2

/-- A segment's first tick on the line is the last one of the phase before. -/
theorem replicate_append_cons_not {d : Nat} (h : 1 ≤ d) (level : Level) (xs : List Level) :
    List.replicate d level ++ (!level) :: xs = level :: (segment level d ++ xs) := by
  obtain ⟨k, rfl⟩ := Nat.exists_eq_add_of_le' h
  simp [segment, List.replicate_succ]

theorem segment_append_of_long {n d : Nat} (h : n + 2 ≤ d) (level : Level) (rest : List Level) :
    ∃ ys, segment level d ++ rest = List.replicate n level ++ level :: ys := by
  obtain ⟨k, rfl⟩ := Nat.exists_eq_add_of_le h
  have hlen : n + 2 + k - 1 = n + (k + 1) := by omega
  refine ⟨List.replicate k level ++ (!level) :: rest, ?_⟩
  simp [segment, hlen, ← List.replicate_append_replicate, List.replicate_succ]

theorem flatMap_cellSamples_append {cells : List (Nat × Nat)} (h : ∀ c ∈ cells, 1 ≤ c.1 ∧ 1 ≤ c.2) (rest : List Level) :
    cells.flatMap cellSamples ++ low :: rest = low :: (cells.flatMap cellSegments ++ rest) := by
  induction cells with
  | nil => rfl
  | cons c cells ih =>
    obtain ⟨hsep, hpulse⟩ := h c List.mem_cons_self
    have hrest := ih fun c' hc' => h c' (List.mem_cons_of_mem c hc')
    simp only [List.flatMap_cons, cellSamples, cellSegments, List.append_assoc, hrest]
    rw [← replicate_append_cons_not hsep]
    exact congrArg _ (replicate_append_cons_not hpulse high _)

theorem Line.samples_append {l : Line} (h : l.Measured) (rest : List Level) :
    l.samples ++ rest = segment high l.t1 ++ (segment low l.t2 ++ (segment high l.t3 ++
      (l.cells.flatMap cellSegments ++ rest))) := by
  have hcells := flatMap_cellSamples_append h.cells_pos rest
  have ht3 := replicate_append_cons_not h.t3_pos high (l.cells.flatMap cellSegments ++ rest)
  have ht2 := replicate_append_cons_not h.t2_pos low (segment high l.t3 ++ (l.cells.flatMap cellSegments ++ rest))
  simp only [Bool.not_true, Bool.not_false] at ht2 ht3
  simp only [Line.samples, List.append_assoc, List.singleton_append, hcells, ht3, ht2]
  simp [segment]

/-! ## The ticks of one segment -/

theorem Phase.ne_idle_of_timed {p : Phase} (h : p.timed = true) : p ≠ .idle := by
  rintro rfl
  cases h

section segment

variable {b : Block} (hrun : b.tmrRun = true) (h0 : b.tmrCnt = 0) (hp : b.phase.timed = true)

include hrun h0 hp

/-- The last tick of a segment that does not time out. -/
theorem runTicks_segment {d : Nat} (hd : d ≤ 301) {c : Block}
    (hlast : (b.timerAdvanceBy (d - 1)).tick params (!b.phase.awaited) = .ok c) :
    runTicks (segment b.phase.awaited d) b = .ok c := by
  rw [segment, runTicks_append_ok (runTicks_awaited hrun h0 hp (by omega))]
  exact runTicks_cons_ok hlast

theorem endsAt_segment {d : Nat} (h1 : 1 ≤ d) (hd : d ≤ 301) {c : Block}
    (hlast : (b.timerAdvanceBy (d - 1)).tick params (!b.phase.awaited) = .ok c) (idle : c.phase = .idle)
    (rest : List Level) : EndsAt (segment b.phase.awaited d ++ rest) b d c := by
  have hend := EndsAt.of_last_tick (rest := rest) (runTicks_awaited hrun h0 hp (show d - 1 ≤ 300 by omega))
    (Phase.ne_idle_of_timed hp) hlast idle
  rwa [List.length_replicate, Nat.sub_add_cancel h1, List.append_cons] at hend

/-- A segment of 302 ticks or more is left at its tick 301 (41_handshake.md R124). -/
theorem endsAt_timeout {d : Nat} (hd : 302 ≤ d) (rest : List Level) :
    EndsAt (segment b.phase.awaited d ++ rest) b 301
      ((b.timerAdvanceBy 301).endTransaction b.phase.timeoutCode true) := by
  have htc := Block.tc_timerAdvanceBy hrun h0 (n := 300) le_rfl
  have hlast : (b.timerAdvanceBy 300).tick params b.phase.awaited =
      .ok ((b.timerAdvanceBy 301).endTransaction b.phase.timeoutCode true) := by
    rw [← Block.timerAdvance_timerAdvanceBy 300]
    exact Block.tick_timeout (b := b.timerAdvanceBy 300) hp (by omega)
  obtain ⟨ys, hys⟩ := segment_append_of_long (n := 300) hd b.phase.awaited rest
  have hend := EndsAt.of_last_tick (rest := ys) (runTicks_awaited hrun h0 hp le_rfl)
    (Phase.ne_idle_of_timed hp) hlast rfl
  rwa [← hys, List.length_replicate] at hend

end segment

end Sys2Proof.Machine
end

