-- ==== Sys2Proof/Proofs/Outcome.lean ====
section
/-! The outcome of a transaction as a function of its line (43_finalize_checksum_convert.md R179). -/

namespace Sys2Proof.Machine

/-! ## The frame of 40 bits -/

/-- A byte as the sum of its bits, the top bit first. -/
theorem sum_bits_eq_toNat (x : Byte) :
    ((List.range 8).map fun j => (x.getLsbD (7 - j)).toNat * 2 ^ (7 - j)).sum = x.toNat := by
  revert x
  decide

section fullFrame

variable {f : Frame} {bits : List Bool} (hf : f.Holds bits) (hlen : bits.length = 40)

include hf hlen

/-- Bit `j` of byte `i`, counted from the top, is bit 8i + j of the line. -/
theorem Frame.Holds.getLsbD {i j : Nat} (hi : i < 5) (hj : j < 8) :
    f[i].getLsbD (7 - j) = bits.getD (8 * i + j) false := by
  have hbit := hf (8 * i + j) (by omega) (by omega)
  have hbyte : (8 * i + j) / 8 = i := by omega
  have hpos : 7 - (8 * i + j) % 8 = 7 - j := by omega
  simp only [hlen, bitPosition_complete (show 8 * i + j < 40 by omega), hbyte, hpos] at hbit
  rw [hbit, List.getD_eq_getElem?_getD]

theorem Frame.Holds.byteOfBits {i : Nat} (hi : i < 5) : byteOfBits bits i = f[i].toNat := by
  rw [← sum_bits_eq_toNat, Machine.byteOfBits]
  refine congrArg List.sum (List.map_congr_left fun j hj => ?_)
  rw [hf.getLsbD hlen hi (List.mem_range.mp hj)]

theorem Frame.Holds.frameOfBits : frameOfBits bits = f := by
  ext i hi
  simp [Machine.frameOfBits, hf.byteOfBits hlen hi]

theorem Frame.Holds.frameCode :
    frameCode bits = if checksum params f = f[4] then .success else .checksumError := by
  simp only [Machine.frameCode, checksum_eq_iff, hf.byteOfBits hlen (show 0 < 5 by decide),
    hf.byteOfBits hlen (show 1 < 5 by decide), hf.byteOfBits hlen (show 2 < 5 by decide),
    hf.byteOfBits hlen (show 3 < 5 by decide), hf.byteOfBits hlen (show 4 < 5 by decide)]

end fullFrame

/-! ## The conditions of R179 -/

theorem tooLong_iff (d : Nat) : tooLong d = true ↔ 302 ≤ d := by simp [tooLong]

theorem within_iff (lo hi d : Nat) : within lo hi d = true ↔ lo ≤ d ∧ d ≤ hi := by simp [within]

theorem pulseBit_eq_classify (d : Nat) : pulseBit d = classify params d := by
  unfold pulseBit
  split
  · exact ((classify_eq_some_false_iff d).mpr ((within_iff ..).mp ‹_›)).symm
  · split
    · exact ((classify_eq_some_true_iff d).mpr ((within_iff ..).mp ‹_›)).symm
    · exact ((classify_eq_none_iff d).mpr ⟨mt (within_iff ..).mpr ‹_›, mt (within_iff ..).mpr ‹_›⟩).symm

/-- The outcomes that leave the frame unconverted and unchecked. -/
abbrev ResultCode.Aborts (code : ResultCode) : Prop := code ≠ .success ∧ code ≠ .checksumError

theorem Phase.timeoutCode_aborts (p : Phase) : p.timeoutCode.Aborts := by
  cases p <;> decide

/-! ## A transaction under way and ended -/

/-- The block at the first tick of a timed phase of the transaction that `b` accepted at `now`, with these bits in the
frame `f`. -/
def Block.receiving (b : Block) (now : Seconds) (p : Phase) (bits : List Bool) (f : Frame) : Block :=
  { b.acceptPoll now with
    phase := p
    holdCnt := 1000
    tmrCnt := 0
    tmrRun := true
    bitIdx := BitVec.ofNat 6 bits.length
    frame := f
    lineOe := false
    lineOut := high }

/-- The block `c` is what the transaction that `b` accepted at `now` leaves when it ends this way (60_exceptions.md R232;
R172, R177). -/
structure Block.EndedAs (b : Block) (now : Seconds) (e : Ending) (c : Block) : Prop where
  result : c.result = e.code
  polled : c.polled = true
  timer : c.tmrRun = e.timerRuns
  hold : c.holdCnt = 1000
  bitCount : c.bitIdx.toNat = e.bits.length
  lastPoll : c.lastPoll = now
  lastValid : c.lastValid = true
  lineOe : c.lineOe = true
  lineOut : c.lineOut = true
  frame : e.code = .success ∨ e.code = .checksumError → c.frame = frameOfBits e.bits
  stored : e.code = .success → c.rdValid = true ∧ c.hum = humidity (frameOfBits e.bits) ∧
    c.temp = temperature params b.cfgSignSrc (frameOfBits e.bits)
  kept : e.code ≠ .success → c.rdValid = b.rdValid ∧ c.hum = b.hum ∧ c.temp = b.temp

/-- After the request the sensor's answer is awaited (41_handshake.md R122, R123). -/
theorem runTicks_request {request : List Level} (h : request.length = 1000) (b : Block) (now : Seconds) :
    runTicks request (b.acceptPoll now) = .ok (b.receiving now .awaitAck [] #v[0x00, 0x00, 0x00, 0x00, 0x00]) := by
  have htake : (request.take 999).length = 999 := List.length_take_of_le (by omega)
  obtain ⟨v, hv⟩ := List.length_eq_one_iff.mp (show (request.drop 999).length = 1 by rw [List.length_drop, h])
  have harm := Block.tick_reqLow_arm (b := (b.acceptPoll now).requested 999) (v := v) rfl
    (Block.holdCnt_requested_add_one (by decide) _)
  rw [← List.take_append_drop 999 request, hv, runTicks_append_ok (runTicks_acceptPoll (by omega) b now), htake]
  exact runTicks_cons_ok harm

section ended

variable (b : Block) (now : Seconds) (p : Phase) {bits : List Bool} {f : Frame}

theorem Block.bitIdx_receiving (f : Frame) (hlen : bits.length ≤ 40) :
    (b.receiving now p bits f).bitIdx.toNat = bits.length :=
  Nat.mod_eq_of_lt (by omega)

/-- EndTransaction on a block whose timer runs: what is left to show is the frame and the reading. -/
theorem Block.endedAs_endTransaction {b c : Block} {now : Seconds} {code : ResultCode} {stop : Bool} (ticks : Nat)
    (hrun : c.tmrRun = true) (hhold : c.holdCnt = 1000) (hlatch : c.nowLatch = now)
    (hcount : c.bitIdx.toNat = bits.length)
    (hframe : code = .success ∨ code = .checksumError → c.frame = frameOfBits bits)
    (hstored : code = .success → c.rdValid = true ∧ c.hum = humidity (frameOfBits bits) ∧
      c.temp = temperature params b.cfgSignSrc (frameOfBits bits))
    (hkept : code ≠ .success → c.rdValid = b.rdValid ∧ c.hum = b.hum ∧ c.temp = b.temp) :
    b.EndedAs now ⟨code, ticks, bits, !stop⟩ (c.endTransaction code stop) where
  result := rfl
  polled := rfl
  timer := by cases stop <;> simp [hrun]
  hold := hhold
  bitCount := hcount
  lastPoll := hlatch
  lastValid := rfl
  lineOe := rfl
  lineOut := rfl
  frame := hframe
  stored := hstored
  kept := hkept

/-- Any end but Finalize's keeps the reading. -/
theorem Block.endedAs_abort {code : ResultCode} (hlen : bits.length ≤ 40) (hcode : code.Aborts) (stop : Bool)
    (n ticks : Nat) :
    b.EndedAs now ⟨code, ticks, bits, !stop⟩
      (((b.receiving now p bits f).timerAdvanceBy n).endTransaction code stop) := by
  obtain ⟨hsuccess, hchecksum⟩ := hcode
  exact endedAs_endTransaction ticks rfl rfl rfl (b.bitIdx_receiving now p f hlen)
    (fun h => absurd h (not_or.mpr ⟨hsuccess, hchecksum⟩)) (fun h => absurd h hsuccess) (fun _ => ⟨rfl, rfl, rfl⟩)

/-- Finalize on a full frame (R170). -/
theorem Block.endedAs_finalize (hf : f.Holds bits) (hlen : bits.length = 40) (n ticks : Nat) :
    b.EndedAs now ⟨frameCode bits, ticks, bits, false⟩
      (((b.receiving now p bits f).timerAdvanceBy n).finalize params) := by
  have hcount := b.bitIdx_receiving now p f hlen.le
  rw [hf.frameCode hlen]
  rcases Block.finalize_cases params ((b.receiving now p bits f).timerAdvanceBy n) with ⟨hck, e⟩ | ⟨hck, e⟩
  · rw [e, if_pos (show checksum params f = f[4] from hck)]
    refine endedAs_endTransaction (stop := true) ticks rfl rfl rfl hcount ?_ ?_ (fun h => absurd rfl h)
    all_goals rw [hf.frameOfBits hlen]
    · exact fun _ => rfl
    · exact fun _ => ⟨rfl, rfl, rfl⟩
  · rw [e, if_neg (show checksum params f ≠ f[4] from hck)]
    refine endedAs_endTransaction (stop := true) ticks rfl rfl rfl hcount ?_ nofun (fun _ => ⟨rfl, rfl, rfl⟩)
    rw [hf.frameOfBits hlen]
    exact fun _ => rfl

end ended

/-! ## One rule of R179 per segment -/

/-- From the block `c`, `elapsed` ticks after the arm tick, these samples end the transaction that `b` accepted at `now`
as `e` says. -/
def Resolves (b : Block) (now : Seconds) (e : Ending) (samples : List Level) (c : Block) (elapsed : Nat) : Prop :=
  ∃ n d, EndsAt samples c n d ∧ e.ticks = elapsed + n ∧ b.EndedAs now e d

section rules

variable {b : Block} {now : Seconds} {p : Phase} {bits : List Bool} {f : Frame} {d elapsed : Nat} {rest : List Level}

/-- The count that the last tick of a segment works with is the segment's duration (41_handshake.md R128). -/
theorem Block.tc_receiving (h1 : 1 ≤ d) (hd : d ≤ 301) :
    ((b.receiving now p bits f).timerAdvanceBy (d - 1)).tc.toNat = d := by
  rw [Block.tc_timerAdvanceBy (b := b.receiving now p bits f) rfl rfl (by omega), Nat.sub_add_cancel h1]

theorem Block.timerAdvance_receiving (h1 : 1 ≤ d) :
    ((b.receiving now p bits f).timerAdvanceBy (d - 1)).timerAdvance = (b.receiving now p bits f).timerAdvanceBy d := by
  rw [Block.timerAdvance_timerAdvanceBy, Nat.sub_add_cancel h1]

theorem Resolves.timeout (hp : p.timed = true) (hlen : bits.length ≤ 40) (hd : 302 ≤ d) :
    Resolves b now ⟨p.timeoutCode, elapsed + 301, bits, false⟩ (segment p.awaited d ++ rest)
      (b.receiving now p bits f) elapsed :=
  ⟨301, _, endsAt_timeout (b := b.receiving now p bits f) rfl rfl hp hd rest, rfl,
    Block.endedAs_abort b now p hlen p.timeoutCode_aborts true _ _⟩

/-- A segment that ends outside its limits. -/
theorem Resolves.abort {code : ResultCode} {stop : Bool} (hp : p.timed = true) (hlen : bits.length ≤ 40)
    (hcode : code.Aborts) (h1 : 1 ≤ d) (hd : d ≤ 301)
    (hlast : ((b.receiving now p bits f).timerAdvanceBy (d - 1)).tick params (!p.awaited) =
      .ok (((b.receiving now p bits f).timerAdvanceBy d).endTransaction code stop)) :
    Resolves b now ⟨code, elapsed + d, bits, !stop⟩ (segment p.awaited d ++ rest) (b.receiving now p bits f) elapsed :=
  ⟨d, _, endsAt_segment (b := b.receiving now p bits f) rfl rfl hp h1 hd hlast rfl rest, rfl,
    Block.endedAs_abort b now p hlen hcode stop _ _⟩

/-- A segment inside its limits hands over to the next. -/
theorem Resolves.pass {e : Ending} {c : Block} (hp : p.timed = true) (h1 : 1 ≤ d) (hd : d ≤ 301) (busy : c.phase ≠ .idle)
    (hlast : ((b.receiving now p bits f).timerAdvanceBy (d - 1)).tick params (!p.awaited) = .ok c)
    (h : Resolves b now e rest c (elapsed + d)) :
    Resolves b now e (segment p.awaited d ++ rest) (b.receiving now p bits f) elapsed := by
  obtain ⟨n, c', hend, hticks, hc'⟩ := h
  have hrun : runTicks (segment p.awaited d) (b.receiving now p bits f) = .ok c :=
    runTicks_segment (b := b.receiving now p bits f) rfl rfl hp hd hlast
  have hlength : (segment p.awaited d).length = d := by simp [segment, Nat.sub_add_cancel h1]
  have hafter := hend.after hrun busy
  rw [hlength] at hafter
  exact ⟨d + n, c', hafter, by omega, hc'⟩

/-- The three lines that R179 has for each acknowledge segment and each separator. -/
theorem Resolves.window {next : Phase} {lo hi : Nat} {err : ResultCode} {stop : Bool} {e : Ending} (hp : p.timed = true)
    (hnext : next ≠ .idle) (herr : err.Aborts) (hlen : bits.length ≤ 40) (h1 : 1 ≤ d)
    (hwait : ∀ v, ((b.receiving now p bits f).timerAdvanceBy (d - 1)).tick params v =
      ((b.receiving now p bits f).timerAdvanceBy (d - 1)).timerAdvance.wait params v p.awaited (closedWindow lo hi)
        p.timeoutCode err stop (fun _ c => .ok (c.enterTimed next)))
    (hpass : Resolves b now e rest (b.receiving now next bits f) (elapsed + d)) :
    Resolves b now
      (if tooLong d then ⟨p.timeoutCode, elapsed + 301, bits, false⟩
        else if !within lo hi d then ⟨err, elapsed + d, bits, !stop⟩ else e)
      (segment p.awaited d ++ rest) (b.receiving now p bits f) elapsed := by
  by_cases hlong : 302 ≤ d
  · rw [if_pos ((tooLong_iff d).mpr hlong)]
    exact .timeout hp hlen hlong
  · rw [if_neg (mt (tooLong_iff d).mp hlong)]
    have hd : d ≤ 301 := by omega
    obtain ⟨_, _, hin, hout⟩ := Block.tick_of_wait (Bool.not_ne_self p.awaited) hwait
    rw [Block.tc_receiving h1 hd] at hin hout
    by_cases hw : within lo hi d = true
    · rw [if_neg (by simp [hw])]
      exact .pass hp h1 hd hnext (hin ((within_iff ..).mp hw)) hpass
    · rw [if_pos (by simpa using hw)]
      have hgap : d < lo ∨ hi < d := by have := mt (within_iff lo hi d).mpr hw; omega
      refine .abort hp hlen herr h1 hd ?_
      rw [← Block.timerAdvance_receiving h1]
      exact hout hgap

/-- The last tick of a pulse that stands for a bit appends it, and goes on or, at the 40th, to Finalize
(42_bit_decode.md R152). -/
theorem Block.tick_pulse {bit : Bool} (hf : f.Holds bits) (hlen : bits.length < 40) (h1 : 1 ≤ d)
    (hbit : classify params d = some bit) (hd : d ≤ 301) :
    ∃ g, Frame.Holds g (bits ++ [bit]) ∧
      ((bits.length = 39 ∧ ((b.receiving now .bitHigh bits f).timerAdvanceBy (d - 1)).tick params low =
          .ok (((b.receiving now .bitHigh (bits ++ [bit]) g).timerAdvanceBy d).finalize params)) ∨
        (bits.length < 39 ∧ ((b.receiving now .bitHigh bits f).timerAdvanceBy (d - 1)).tick params low =
          .ok (b.receiving now .bitSep (bits ++ [bit]) g))) := by
  have hcount := b.bitIdx_receiving now .bitHigh f hlen.le
  have htick := Block.tick_bitHigh_pass (b := (b.receiving now .bitHigh bits f).timerAdvanceBy (d - 1)) rfl
    ((congrArg _ (Block.tc_receiving h1 hd)).trans hbit)
  rw [Block.timerAdvance_receiving h1] at htick
  obtain ⟨g, happ, hg⟩ := appendBit_holds hf hlen bit
  have hnext : BitVec.ofNat 6 bits.length + 1 = BitVec.ofNat 6 (bits ++ [bit]).length := by
    rw [List.length_append, BitVec.ofNat_add]
    rfl
  refine ⟨g, hg, ?_⟩
  rcases Block.takeBit_cases ((b.receiving now .bitHigh bits f).timerAdvanceBy d) bit (hcount.trans_lt hlen) with
    ⟨g', happ', h | h⟩
  all_goals
    cases happ.symm.trans happ'
    obtain ⟨hk, e⟩ := h
    rw [htick, e, ← hcount]
  · exact .inl ⟨hk, by simp only [Block.receiving, ← hnext]; rfl⟩
  · exact .inr ⟨hk, by simp only [Block.receiving, ← hnext]; rfl⟩

theorem Resolves.pulse_abort (hlen : bits.length ≤ 40) (h1 : 1 ≤ d) (hd : d ≤ 301) (hbit : pulseBit d = none) :
    Resolves b now ⟨.readBitError, elapsed + d, bits, false⟩ (segment high d ++ rest)
      (b.receiving now .bitHigh bits f) elapsed := by
  have hnone : classify params ((b.receiving now .bitHigh bits f).timerAdvanceBy (d - 1)).tc.toNat = none := by
    rw [Block.tc_receiving h1 hd, ← pulseBit_eq_classify, hbit]
  refine .abort (p := .bitHigh) (code := .readBitError) (stop := true) rfl hlen (by decide) h1 hd ?_
  rw [← Block.timerAdvance_receiving h1]
  exact (Block.tick_bitHigh rfl).trans (Block.wait_fail (by decide) hnone)

/-- A pulse that stands for a bit. -/
theorem Resolves.pulse {bit : Bool} {e : Ending} (hf : f.Holds bits) (hlen : bits.length < 40) (h1 : 1 ≤ d)
    (hd : d ≤ 301) (hbit : pulseBit d = some bit)
    (hlast : bits.length = 39 → e = ⟨frameCode (bits ++ [bit]), elapsed + d, bits ++ [bit], false⟩)
    (hnext : bits.length < 39 → ∀ g, Frame.Holds g (bits ++ [bit]) →
      Resolves b now e rest (b.receiving now .bitSep (bits ++ [bit]) g) (elapsed + d)) :
    Resolves b now e (segment high d ++ rest) (b.receiving now .bitHigh bits f) elapsed := by
  obtain ⟨g, hg, ⟨hk, htick⟩ | ⟨hk, htick⟩⟩ :=
    Block.tick_pulse (b := b) (now := now) hf hlen h1 ((pulseBit_eq_classify d).symm.trans hbit) hd
  · rw [hlast hk]
    exact ⟨d, _, endsAt_segment (b := b.receiving now .bitHigh bits f) rfl rfl rfl h1 hd htick
      (Block.finalize_phase _ _) rest, rfl, Block.endedAs_finalize b now _ hg (by simp [hk]) _ _⟩
  · exact .pass (p := .bitHigh) rfl h1 hd (by nofun) htick (hnext hk g hg)

end rules

/-- The bit cells of R179. -/
theorem resolves_cells {b : Block} {now : Seconds} {cells : List (Nat × Nat)} {bits : List Bool} {f : Frame}
    {elapsed : Nat} (hf : f.Holds bits) (hlen : bits.length + cells.length = 40) (hmore : bits.length < 40)
    (hpos : ∀ c ∈ cells, 1 ≤ c.1 ∧ 1 ≤ c.2) (rest : List Level) :
    Resolves b now (cellsEnding b.cfgSepErrStop elapsed bits cells) (cells.flatMap cellSegments ++ rest)
      (b.receiving now .bitSep bits f) elapsed := by
  induction cells generalizing bits f elapsed with
  | nil => rw [List.length_nil] at hlen; omega
  | cons c cells ih =>
    obtain ⟨sep, pulse⟩ := c
    obtain ⟨hsep, hpulse⟩ := hpos _ List.mem_cons_self
    rw [List.length_cons] at hlen
    rw [cellsEnding, List.flatMap_cons, cellSegments, List.append_assoc, List.append_assoc]
    refine Resolves.window (p := .bitSep) (next := .bitHigh) rfl (by decide) (by decide) hmore.le hsep
      (fun _ => Block.tick_bitSep rfl) ?_
    split
    case isTrue hlong => exact .timeout (p := .bitHigh) rfl hmore.le ((tooLong_iff _).mp hlong)
    case isFalse hlong =>
      have hd : pulse ≤ 301 := by have := mt (tooLong_iff pulse).mpr hlong; omega
      split
      case h_1 hbit => exact .pulse_abort hmore.le hpulse hd hbit
      case h_2 bit hbit =>
        refine .pulse hf hmore hpulse hd hbit (fun hk => ?_) fun hk g hg => ?_
        · rw [List.eq_nil_of_length_eq_zero (show cells.length = 0 by omega), cellsEnding]
        · exact ih hg (by simp; omega) (by simp; omega) fun c hc => hpos c (List.mem_cons_of_mem _ hc)

/-- The line of R179, from the arm tick. -/
theorem Line.resolves {l : Line} (hl : l.Measured) (b : Block) (now : Seconds) (f : Frame) (rest : List Level) :
    Resolves b now (l.ending b.cfgSepErrStop) (l.samples ++ rest) (b.receiving now .awaitAck [] f) 0 := by
  have hbits := resolves_cells (b := b) (now := now) (f := f) (bits := []) (elapsed := 0 + l.t1 + l.t2 + l.t3)
    (fun k _ hk => absurd hk (Nat.not_lt_zero k)) (by simp [hl.cells_length]) (by decide) hl.cells_pos rest
  have hackHigh := hbits.window (p := .ackHigh) (lo := 70) (hi := 100) (err := .responseError) (stop := true) rfl
    (by decide) (by decide) (by decide) hl.t3_pos fun _ => Block.tick_ackHigh rfl
  have hackLow := hackHigh.window (p := .ackLow) (lo := 70) (hi := 110) (err := .responseError) (stop := true) rfl
    (by decide) (by decide) (by decide) hl.t2_pos fun _ => Block.tick_ackLow rfl
  have hawaitAck := hackLow.window (p := .awaitAck) (lo := 10) (hi := 200) (err := .responseError) (stop := true) rfl
    (by decide) (by decide) (by decide) hl.t1_pos fun _ => Block.tick_awaitAck rfl
  rw [Line.samples_append hl]
  simp only [Nat.zero_add] at hawaitAck
  exact hawaitAck

/-- Settles O59: the request runs to the arm tick, and from there the line decides. -/
theorem outcomeIsAFunctionOfTheLine : Obligations.OutcomeIsAFunctionOfTheLine := by
  intro b now request l rest hrequest hl e samples
  obtain ⟨n, c, hend, hticks, hc⟩ := Line.resolves hl b now #v[0x00, 0x00, 0x00, 0x00, 0x00] rest
  have hall : EndsAt samples (b.acceptPoll now) (1000 + e.ticks) c := by
    have hafter := hend.after (runTicks_request hrequest b now) nofun
    rwa [hrequest, ← List.append_assoc, ← hticks.trans (Nat.zero_add n)] at hafter
  exact ⟨fun m hm => hall.busy_before hm, c, hall.run, hall.idle, hc.result, hc.polled, hc.timer, hc.hold, hc.bitCount,
    hc.lastPoll, hc.lastValid, hc.lineOe, hc.lineOut, hc.frame, hc.stored, hc.kept⟩

end Sys2Proof.Machine
end

