-- ==== Sys2Proof/Proofs/RegisterAccess.lean ====
section
/-! The register accesses: the words that name them, the data of each read, and what WR_CFG and the ignored writes do
(44_register_access.md R190 to R203). -/

namespace Sys2Proof.Machine

/-! ## The words of the readable registers (10_state.md R42 to R52) -/

/-- A zero-extended word has no bit above its own width. -/
theorem getLsbD_setWidth_of_ge {n m i : Nat} (v : BitVec n) (h : n ≤ i) : (v.setWidth m).getLsbD i = false := by
  rw [BitVec.getLsbD_setWidth, BitVec.getLsbD_of_ge _ _ h, Bool.and_false]

/-- One more byte at the low end of a word. -/
theorem toNat_append_low_byte {n : Nat} (hi : BitVec n) (lo : Byte) :
    (hi ++ lo).toNat = hi.toNat * 256 + lo.toNat := by
  rw [BitVec.toNat_append, ← Nat.shiftLeft_add_eq_or_of_lt lo.isLt, Nat.shiftLeft_eq]

section words

variable (b : Block)

/-- The flags of STATUS, from bit 0 up (10_state.md R42). -/
theorem Block.statusWord_flags :
    b.statusWord.getLsbD 0 = b.busy ∧ b.statusWord.getLsbD 1 = b.rdValid ∧ b.statusWord.getLsbD 2 = b.tmrRun ∧
      b.statusWord.getLsbD 3 = b.lastValid ∧ b.statusWord.getLsbD 4 = b.polled ∧
      b.statusWord.getLsbD 5 = b.lineOe ∧ b.statusWord.getLsbD 6 = b.lineOut := by
  simp only [Block.statusWord, BitVec.getLsbD_setWidth, BitVec.getLsbD_append]
  simp

theorem Block.statusWord_reserved {n : Nat} (h : 7 ≤ n) : b.statusWord.getLsbD n = false := getLsbD_setWidth_of_ge _ h

theorem Block.resultWord_of_result {c : ResultCode} (h : b.result = c) : b.resultWord = c.code.setWidth 32 := by
  rw [Block.resultWord, h]

theorem Block.humWord_eq_ofNat : b.humWord = BitVec.ofNat 32 b.hum.toNat := (BitVec.ofNat_toNat 32 b.hum).symm

theorem Block.tempWord_eq_ofInt : b.tempWord = BitVec.ofInt 32 b.temp.toInt := by
  rw [Block.tempWord, BitVec.signExtend]

/-- The fields of CFG, from bit 0 up (10_state.md R43). -/
theorem Block.cfgWord_fields : b.cfgWord.getLsbD 0 = b.cfgSignSrc ∧ b.cfgWord.getLsbD 1 = b.cfgSepErrStop := by
  simp only [Block.cfgWord, BitVec.getLsbD_setWidth, BitVec.getLsbD_append]
  simp

theorem Block.cfgWord_reserved {n : Nat} (h : 2 ≤ n) : b.cfgWord.getLsbD n = false := getLsbD_setWidth_of_ge _ h

theorem Block.timerWord_eq_ofNat : b.timerWord = BitVec.ofNat 32 b.tmrCnt.toNat := (BitVec.ofNat_toNat 32 b.tmrCnt).symm

theorem Block.frameHiWord_toNat : b.frameHiWord.toNat =
    b.frame[0].toNat * 2 ^ 24 + b.frame[1].toNat * 2 ^ 16 + b.frame[2].toNat * 2 ^ 8 + b.frame[3].toNat := by
  calc b.frameHiWord.toNat
      _ = ((b.frame[0].toNat * 256 + b.frame[1].toNat) * 256 + b.frame[2].toNat) * 256 + b.frame[3].toNat := by
        rw [Block.frameHiWord, toNat_append_low_byte, toNat_append_low_byte, toNat_append_low_byte]
      _ = _ := by ring

theorem Block.frameCkWord_eq_ofNat : b.frameCkWord = BitVec.ofNat 32 b.frame[4].toNat :=
  (BitVec.ofNat_toNat 32 b.frame[4]).symm

/-- The layout of PHASE, the top field first (10_state.md R52): on both sides a bit is a bit of the same field, or 0. -/
theorem Block.phaseWord_eq_append : b.phaseWord = 0#5 ++ b.holdCnt ++ 0#2 ++ b.bitIdx ++ 0#5 ++ b.phase.code := by
  refine BitVec.eq_of_getLsbD_eq fun i hi => ?_
  simp only [Block.phaseWord, BitVec.getLsbD_or, BitVec.getLsbD_shiftLeft, BitVec.getLsbD_setWidth,
    BitVec.getLsbD_append, BitVec.getLsbD_zero]
  grind

/-- The fields of PHASE and the reserved ones between them, from bit 0 up. -/
theorem Block.phaseWord_fields :
    b.phaseWord.extractLsb' 0 3 = b.phase.code ∧ b.phaseWord.extractLsb' 3 5 = 0 ∧
      b.phaseWord.extractLsb' 8 6 = b.bitIdx ∧ b.phaseWord.extractLsb' 14 2 = 0 ∧
      b.phaseWord.extractLsb' 16 11 = b.holdCnt ∧ b.phaseWord.extractLsb' 27 5 = 0 := by
  rw [Block.phaseWord_eq_append]
  simp (disch := decide) only [BitVec.extractLsb'_append_eq_of_le, BitVec.extractLsb'_append_eq_of_add_le,
    Nat.reduceSub, BitVec.extractLsb'_eq_self, BitVec.extractLsb'_zero, BitVec.ofNat_eq_ofNat, and_self]

end words

/-! ## Reads -/

/-- Settles O10: BUSY is set outside IDLE, the other flags are elements of the block, and STATUS holds seven bits. -/
theorem readStatusShowsLiveFlags : Obligations.ReadStatusShowsLiveFlags := by
  refine ⟨fun d => decode_of_read _ d rfl rfl rfl rfl, fun s => ⟨_, hostRead_eq _ s, rfl, ?_⟩⟩
  obtain ⟨hbusy, hrdValid, htmrRun, hlastValid, hpolled, hlineOe, hlineOut⟩ := s.block.statusWord_flags
  refine ⟨hbusy.trans ?_, hrdValid, htmrRun, hlastValid, hpolled, hlineOe, hlineOut, fun _ =>
    s.block.statusWord_reserved⟩
  rw [Bool.eq_iff_iff, Block.busy_eq_true_iff, decide_eq_true_iff]

/-- Settles O11: RESULT is the code of the outcome in result. -/
theorem readResultShowsTheCode : Obligations.ReadResultShowsTheCode := by
  refine ⟨fun d => decode_of_read _ d rfl rfl rfl rfl, fun s => ⟨_, hostRead_eq _ s, rfl, ?_⟩⟩
  and_intros <;> exact s.block.resultWord_of_result

/-- Settles O12: zero extension keeps the unsigned number and sign extension the signed one. -/
theorem readHumAndTempExtend : Obligations.ReadHumAndTempExtend := by
  intro s
  rw [← Block.humWord_eq_ofNat, ← Block.tempWord_eq_ofInt]
  exact ⟨hostRead_eq _ s, hostRead_eq _ s⟩

/-- Settles O13: CFG holds its two bits and no other. -/
theorem readCfgShowsItsFields : Obligations.ReadCfgShowsItsFields := by
  refine ⟨fun d => decode_of_read _ d rfl rfl rfl rfl, fun s => ⟨_, hostRead_eq _ s, rfl, ?_⟩⟩
  obtain ⟨hsignSrc, hsepErrStop⟩ := s.block.cfgWord_fields
  exact ⟨hsignSrc, hsepErrStop, fun _ => s.block.cfgWord_reserved⟩

/-- Settles O14: the six words are reads, and each gives the constant 0. -/
theorem readsOfCmdAndReservedSlotsGiveZero : Obligations.ReadsOfCmdAndReservedSlotsGiveZero := by
  refine ⟨fun d => ?_, fun s => ?_⟩
  · and_intros <;> exact decode_of_read _ d rfl rfl rfl rfl
  · and_intros <;> exact hostRead_eq zeroWord s

/-- Settles O15: LAST_POLL is last_poll itself, and zero extension keeps the timer's count. -/
theorem readLastPollAndTimer : Obligations.ReadLastPollAndTimer := by
  intro s
  rw [← Block.timerWord_eq_ofNat]
  exact ⟨hostRead_eq _ s, hostRead_eq _ s⟩

/-- Settles O16: each byte appended to a word moves it up by 2^8. -/
theorem readFrameWindows : Obligations.ReadFrameWindows := by
  intro s
  rw [← Block.frameCkWord_eq_ofNat]
  exact ⟨⟨_, hostRead_eq _ s, rfl, s.block.frameHiWord_toNat⟩, hostRead_eq _ s⟩

/-- Settles O17: the layout of PHASE gives each field, and the phase's code is the number R21 lists. -/
theorem readPhaseFields : Obligations.ReadPhaseFields := by
  intro s
  obtain ⟨hcode, hrest⟩ := s.block.phaseWord_fields
  refine ⟨_, hostRead_eq _ s, rfl, hcode.trans ?_, hrest⟩
  cases s.block.phase <;> rfl

/-! ## Writes -/

theorem ignoredWrite_eq (s : State) : ignoredWrite s = .next s := rfl

/-- Settles O20: the fourteen words are writes with their wdata, and none of these writes has an effect. -/
theorem ignoredWritesHaveNoEffect : Obligations.IgnoredWritesHaveNoEffect := by
  refine ⟨fun d => ?_, fun d s => ?_⟩
  · and_intros <;> exact decode_of_write _ d rfl rfl rfl rfl
  · and_intros <;> exact ignoredWrite_eq s

/-- Settles O22: WR_CFG acts on the block in IDLE only, and leaves any other block as it is. -/
theorem writeCfgOnlyWhileIdle : Obligations.WriteCfgOnlyWhileIdle := by
  refine ⟨fun d => decode_of_write _ d rfl rfl rfl rfl, fun d s => ⟨fun hrst hidle => ?_, fun hbusy => ?_⟩⟩
  · rw [exec_wrCfg_free d s hrst, Block.writeCfg_idle d hidle, wdataSignSrc, wdataSepErrStop]
  · exact hostWrite_fixed (Block.writeCfg_busy d hbusy)

end Sys2Proof.Machine
end

