-- ==== Sys2Proof/Proofs/Exceptions.lean ====
section
/-! What EndTransaction writes, and that no step faults or is refused (60_exceptions.md R230 to R233, R247). -/

namespace Sys2Proof.Machine

/-! ## EndTransaction (R232) -/

/-- Settles O35: the argument `stop` decides tmr_run, and every other element is written out. -/
theorem endTransactionWrites : Obligations.EndTransactionWrites := by
  intro b code stop
  have hrun : (if stop then false else b.tmrRun) = (b.tmrRun && !stop) := by cases stop <;> simp
  rw [← hrun]
  rfl

/-! ## No step stops (R230, R247; 30_encoding.md R85) -/

theorem Block.Inv.tick_isOk {b : Block} (h : b.Inv) (v : Level) : ∃ c, b.tick params v = .ok c := by
  obtain ⟨c, hc, _⟩ := Block.tick_isOk v b fun hp => Nat.lt_succ_of_le (h.bits_left (.inr hp))
  exact ⟨c, hc⟩

theorem tickEvent_next {s : State} (h : s.block.Inv) (v : Level) : ∃ t, tickEvent v s = .next t := by
  cases hrst : s.rst with
  | true => exact ⟨s, tickEvent_held hrst⟩
  | false =>
    obtain ⟨c, hc⟩ := h.tick_isOk v
    exact ⟨_, tickEvent_ok hrst hc⟩

theorem exec_next (i : Instr) (s : State) : ∃ t, exec i s = .next t := by
  obtain ⟨t, ht, _⟩ := onlyTwoWritesChangeTheBlock i s
  exact ⟨t, ht⟩

theorem deliver_next {s : State} (h : s.block.Inv) (e : Event) : ∃ t, deliver e s = .next t := by
  cases e with
  | tick v => exact tickEvent_next h v
  | access haw wdata now => exact exec_next _ _
  | rstAssert => exact ⟨assertRst s, rfl⟩
  | rstRelease => exact ⟨releaseRst s, rfl⟩

/-- Settles O9: taking the event leaves the block, and each kind of event answers a next state: a tick because bit_idx
is inside the frame, a host access always. -/
theorem stepNeverStops : Obligations.StepNeverStops := by
  intro s hs
  have hb : (takeEvent s).block.Inv := by
    rw [takeEvent_block]
    exact hs.block_inv
  exact deliver_next hb (nextEvent s)

end Sys2Proof.Machine
end

