-- ==== Sys2Proof/Proofs/TransactionEnds.lean ====
section
/-! Every accepted POLL ends in bounded time (60_exceptions.md R247; 70_reset_and_hazards.md R272): each tick of a
transaction ends it or leaves it fewer ticks. -/

namespace Sys2Proof.Machine

/-! ## The ticks left of a transaction -/

/-- The most ticks from the entry of a phase, with `k` bits received, to the end of the transaction: each phase passes
at the last tick of its window (1000, 200, 110, 100; 70 and 79 in each bit cell), but the 40th pulse times out at its
tick 301. -/
def Phase.longestFrom (k : Nat) : Phase → Nat
  | .idle => 0
  | .reqLow => 7592
  | .awaitAck => 6592
  | .ackLow => 6392
  | .ackHigh => 6282
  | .bitSep => 149 * (39 - k) + 371
  | .bitHigh => 149 * (39 - k) + 301

/-- The ticks spent in the present phase, by the counter that counts them. -/
def Block.ticksSpent (b : Block) : Nat := if b.phase = .reqLow then b.holdCnt.toNat else b.tmrCnt.toNat

/-- The most ticks that are left of the transaction. -/
def Block.ticksLeft (b : Block) : Nat := b.phase.longestFrom b.bitIdx.toNat - b.ticksSpent

/-- A block in the middle of the transaction accepted at `now`. Unlike `Block.Inv` it asks nothing of the elements that
stood before the acceptance, so that every accepted POLL leads to it. -/
structure Block.InTransaction (b : Block) (now : Seconds) : Prop where
  busy : b.phase ≠ .idle
  latched : b.nowLatch = now
  holding : b.phase = .reqLow → b.holdCnt.toNat < 1000
  timing : b.phase.timed = true → b.tmrRun = true ∧ b.tmrCnt.toNat ≤ 300
  bits_left : b.bitIdx.toNat ≤ 39

/-- The transaction accepted at `now` has ended and is recorded (R232, R246). -/
def Block.EndedAt (b : Block) (now : Seconds) : Prop := b.phase = .idle ∧ b.lastValid = true ∧ b.lastPoll = now

/-- From `b` to `c` the transaction goes on and has fewer ticks left. -/
def Block.Progress (b : Block) (now : Seconds) (c : Block) : Prop := c.InTransaction now ∧ c.ticksLeft < b.ticksLeft

theorem Phase.ne_reqLow_of_timed {p : Phase} (h : p.timed = true) : p ≠ .reqLow := by
  rintro rfl
  cases h

/-- Even the last phase has time for its timeout. -/
theorem Phase.longestFrom_ge {p : Phase} (h : p.timed = true) (k : Nat) : 301 ≤ p.longestFrom k := by
  rcases Phase.timed_cases h with rfl | rfl | rfl | rfl | rfl <;> simp [Phase.longestFrom]

theorem Block.ticksSpent_of_reqLow {b : Block} (h : b.phase = .reqLow) : b.ticksSpent = b.holdCnt.toNat := if_pos h

theorem Block.ticksSpent_of_timed {b : Block} (h : b.phase.timed = true) : b.ticksSpent = b.tmrCnt.toNat :=
  if_neg (Phase.ne_reqLow_of_timed h)

/-! ## What one tick does -/

/-- A pulse that stands for a bit is at most 79 ticks long (42_bit_decode.md R154). -/
theorem le_of_classify_eq_some {t : Nat} {bit : Bool} (h : classify params t = some bit) : t ≤ 79 := by
  cases bit with
  | false => have ⟨_, ht⟩ := (classify_eq_some_false_iff t).mp h; omega
  | true => exact ((classify_eq_some_true_iff t).mp h).2

theorem Block.finalize_lastPoll (p : Params) (b : Block) : (b.finalize p).lastPoll = b.nowLatch := by
  rcases Block.finalize_cases p b with ⟨_, e⟩ | ⟨_, e⟩ <;> simp [e]

namespace Block.InTransaction

variable {b c : Block} {now : Seconds}

theorem timed_of_ne_reqLow (h : b.InTransaction now) (hp : b.phase ≠ .reqLow) : b.phase.timed = true :=
  not_not.mp fun ht => ((Phase.not_timed_iff _).mp ht).elim h.busy hp

theorem tc_eq (h : b.InTransaction now) (hp : b.phase.timed = true) : b.tc.toNat = b.tmrCnt.toNat + 1 := by
  obtain ⟨hrun, hcnt⟩ := h.timing hp
  rw [Block.tc, if_pos hrun]
  bv_omega

theorem ticksLeft_pos (h : b.InTransaction now) : 0 < b.ticksLeft := by
  unfold Block.ticksLeft
  by_cases hp : b.phase = .reqLow
  · have hcnt := h.holding hp
    rw [Block.ticksSpent_of_reqLow hp, hp, Phase.longestFrom]
    omega
  · have ht := h.timed_of_ne_reqLow hp
    obtain ⟨_, hcnt⟩ := h.timing ht
    have hlong := Phase.longestFrom_ge ht b.bitIdx.toNat
    rw [Block.ticksSpent_of_timed ht]
    omega

/-- One more tick in the same phase uses up one of the ticks left. -/
theorem ticksLeft_lt (h : b.InTransaction now) (hp : c.phase = b.phase) (hk : c.bitIdx = b.bitIdx)
    (hs : c.ticksSpent = b.ticksSpent + 1) : c.ticksLeft < b.ticksLeft := by
  have hpos := h.ticksLeft_pos
  unfold Block.ticksLeft at hpos ⊢
  rw [hp, hk, hs]
  omega

theorem hold (h : b.InTransaction now) (hp : b.phase = .reqLow) (hn : (b.holdCnt + 1).toNat ≠ 1000) :
    b.Progress now { b.timerAdvance with holdCnt := b.holdCnt + 1 } := by
  have hcnt := h.holding hp
  have hadd : (b.holdCnt + 1).toNat = b.holdCnt.toNat + 1 := by bv_omega
  have hlt : (b.holdCnt + 1).toNat < 1000 := by omega
  refine ⟨⟨h.busy, h.latched, fun _ => hlt, fun ht => absurd hp (Phase.ne_reqLow_of_timed ht), h.bits_left⟩,
    h.ticksLeft_lt rfl rfl ?_⟩
  rw [Block.ticksSpent_of_reqLow (b := b) hp, Block.ticksSpent_of_reqLow]
  · exact hadd
  · exact hp

theorem stay (h : b.InTransaction now) (hp : b.phase.timed = true) (ht : b.tc.toNat ≤ 300) :
    b.Progress now b.timerAdvance := by
  obtain ⟨hrun, _⟩ := h.timing hp
  refine ⟨⟨h.busy, h.latched, h.holding, fun _ => ⟨hrun, ht⟩, h.bits_left⟩, h.ticksLeft_lt rfl rfl ?_⟩
  rw [Block.ticksSpent_of_timed (b := b) hp, Block.ticksSpent_of_timed (b := b.timerAdvance) hp]
  exact h.tc_eq hp

theorem arm (h : b.InTransaction now) (hp : b.phase = .reqLow) (hn : (b.holdCnt + 1).toNat = 1000) :
    b.Progress now (Block.releaseAndArm { b.timerAdvance with holdCnt := b.holdCnt + 1 }) := by
  refine ⟨⟨nofun, h.latched, nofun, fun _ => ⟨rfl, Nat.zero_le _⟩, h.bits_left⟩, ?_⟩
  have hcnt : b.holdCnt.toNat = 999 := by bv_omega
  have hb : b.ticksLeft = 7592 - 999 := by rw [Block.ticksLeft, Block.ticksSpent_of_reqLow hp, hp, hcnt]; rfl
  rw [hb]
  exact Nat.lt_succ_self 6592

/-- Going on to a timed phase `q` is progress where the ticks it may take and those this phase has taken fit into what
this phase may take. -/
theorem enterTimed (h : b.InTransaction now) (hp : b.phase.timed = true) {q : Phase} (hq : q.timed = true)
    {f : Frame} {k : BitIdx} (hk : k.toNat ≤ 39)
    (hleft : q.longestFrom k.toNat + b.tc.toNat ≤ b.phase.longestFrom b.bitIdx.toNat) :
    b.Progress now (Block.enterTimed q { b.timerAdvance with frame := f, bitIdx := k }) := by
  obtain ⟨hrun, _⟩ := h.timing hp
  refine ⟨⟨Phase.ne_idle_of_timed hq, h.latched, fun hr => absurd hr (Phase.ne_reqLow_of_timed hq),
    fun _ => ⟨hrun, Nat.zero_le _⟩, hk⟩, ?_⟩
  have htc := h.tc_eq hp
  have hlong := Phase.longestFrom_ge hq k.toNat
  rw [Block.ticksLeft, Block.ticksLeft, Block.ticksSpent_of_timed hp, Block.ticksSpent_of_timed hq]
  dsimp only [Block.enterTimed_phase, Block.enterTimed_bitIdx, Block.enterTimed_tmrCnt]
  omega

/-- Every tick of a transaction ends it or leaves it fewer ticks. -/
theorem tick (h : b.InTransaction now) {v : Level} (hc : TickStep v b c) :
    c.EndedAt now ∨ b.Progress now c := by
  cases hc with
  | idle hp => exact absurd hp h.busy
  | hold hp hn => exact .inr (h.hold hp hn)
  | arm hp hn => exact .inr (h.arm hp hn)
  | stay hp _ ht => exact .inr (h.stay hp ht)
  | timeout | ackFailed | sepFailed | pulseFailed => exact .inl ⟨rfl, rfl, h.latched⟩
  | ackLow hp _ ht | ackHigh hp _ ht | bitSep hp _ ht | bitHigh hp _ ht =>
    refine .inr (h.enterTimed (hp ▸ rfl) rfl h.bits_left ?_)
    simp only [hp, Phase.longestFrom]
    omega
  | nextBit hp _ bit ht hk f _ =>
    have hadd : (b.bitIdx + 1).toNat = b.bitIdx.toNat + 1 := by bv_omega
    have hpulse := le_of_classify_eq_some ht
    refine .inr (h.enterTimed (hp ▸ rfl) rfl (by omega) ?_)
    simp only [hp, Phase.longestFrom, hadd]
    omega
  | lastBit =>
    exact .inl ⟨Block.finalize_phase _ _, Block.finalize_lastValid _ _,
      (Block.finalize_lastPoll _ _).trans h.latched⟩

/-- On as many samples as there are ticks left, whatever they are, the transaction ends. -/
theorem ends {samples : List Level} (h : b.InTransaction now) (hleft : b.ticksLeft ≤ samples.length) :
    ∃ n c, n ≤ samples.length ∧ runTicks (samples.take n) b = .ok c ∧ c.EndedAt now := by
  induction samples generalizing b with
  | nil => exact absurd h.ticksLeft_pos (Nat.not_lt.mpr hleft)
  | cons v samples ih =>
    obtain ⟨c, hc, hstep⟩ := Block.tick_isOk v b fun _ => Nat.lt_succ_of_le h.bits_left
    rcases h.tick hstep with hend | ⟨htrans, hlt⟩
    · exact ⟨1, c, Nat.succ_pos _, runTicks_cons_ok hc, hend⟩
    · obtain ⟨n, d, hn, hrun, hend⟩ := ih htrans (by rw [List.length_cons] at hleft; omega)
      exact ⟨n + 1, d, Nat.succ_le_succ hn, (runTicks_cons_ok hc).trans hrun, hend⟩

end Block.InTransaction

/-! ## From the acceptance on -/

theorem Block.acceptPoll_inTransaction (b : Block) (now : Seconds) : (b.acceptPoll now).InTransaction now :=
  ⟨nofun, rfl, fun _ => Nat.zero_lt_succ _, nofun, Nat.zero_le _⟩

/-- Settles O58: an accepted POLL has 7592 ticks left, and each tick ends the transaction or leaves it fewer. -/
theorem everyTransactionEnds : Obligations.EveryTransactionEnds := by
  intro b now samples hlen
  have hleft : (b.acceptPoll now).ticksLeft = 7592 := rfl
  obtain ⟨n, c, hn, hrun, hidle, hvalid, hpoll⟩ := (b.acceptPoll_inTransaction now).ends (hleft.trans hlen.symm).le
  exact ⟨n, c, hlen ▸ hn, hrun, hidle, hvalid, hpoll⟩

end Sys2Proof.Machine
end

