-- ==== Sys2Proof/Proofs/Reset.lean ====
section
/-! Reset: what the register reads give after it, what it holds off while it is asserted, and that a transaction it
abandons leaves the gate open (70_reset_and_hazards.md R260 to R262). -/

namespace Sys2Proof.Machine

/-! ## Reads of the reset block (R262) -/

section resetBlock

variable {s : State} (h : s.block = Block.reset)

include h

theorem exec_rdStatus_reset : exec .rdStatus s = .next { s with rdata := 0x60 } := by
  have hword : Block.reset.statusWord = 0x60 := by decide
  rw [← hword, ← h]
  exact hostRead_eq _ s

/-- A read of a word that is 0 in the reset block. -/
theorem hostRead_reset {word : Block → Word} (hword : word Block.reset = 0) :
    hostRead (word s.block) s = .next { s with rdata := 0 } := by
  have hzero : word s.block = 0 := by rw [h, hword]
  rw [hzero, hostRead_eq]

/-- Every read but the one of STATUS gives 0, the reserved reads among them. -/
theorem exec_read_reset {i : Instr} (hread : i.isWrite = false) (hi : i ≠ .rdStatus) :
    exec i s = .next { s with rdata := 0 } := by
  cases i with
  | rdStatus => exact absurd rfl hi
  | rdResult => exact hostRead_reset h (word := Block.resultWord) rfl
  | rdHum => exact hostRead_reset h (word := Block.humWord) rfl
  | rdTemp => exact hostRead_reset h (word := Block.tempWord) rfl
  | rdCfg => exact hostRead_reset h (word := Block.cfgWord) rfl
  | rdLastpoll => exact hostRead_reset h (word := Block.lastPollWord) rfl
  | rdFrameHi => exact hostRead_reset h (word := Block.frameHiWord) rfl
  | rdFrameCk => exact hostRead_reset h (word := Block.frameCkWord) rfl
  | rdTimer => exact hostRead_reset h (word := Block.timerWord) rfl
  | rdPhase => exact hostRead_reset h (word := Block.phaseWord) rfl
  | rdCmd | rdRsvdB | rdRsvdC | rdRsvdD | rdRsvdE | rdRsvdF => exact hostRead_eq zeroWord s
  | rsv6 w | rsv5 w | rsv4 w => cases (show w = false from hread); exact reservedAccess_read s
  | _ => cases hread

end resetBlock

/-- Settles O30: the flags of the reset block are LINE_OUT and LINE_OE, and its other words are 0. -/
theorem registersAfterReset : Obligations.RegistersAfterReset := by
  refine fun s h => ⟨exec_rdStatus_reset h, ?_⟩
  and_intros <;> exact exec_read_reset h rfl nofun

/-! ## While rst is asserted (R260) -/

/-- No host write acts while rst is asserted. -/
theorem exec_write_held {i : Instr} {s : State} (hrst : s.rst = true) (hw : i.isWrite = true) : exec i s = .next s := by
  rcases exec_cases i s with ⟨v, e⟩ | e | ⟨_, _, hfree, _⟩ | ⟨_, _, hfree, _⟩
  · have hv : v = s.rdata := exec_write_keeps_rdata hw e
    rw [e, hv]
  · exact e
  · exact absurd (hrst.symm.trans hfree) (by decide)
  · exact absurd (hrst.symm.trans hfree) (by decide)

/-- Settles O29: the assertion gives the reset block, and while it lasts a tick and a write do nothing and a read changes
rdata only. -/
theorem resetSetsEveryElement : Obligations.ResetSetsEveryElement := by
  refine fun s => ⟨fun rest h => ?_, fun hrst v rest h => ?_, fun hrst i => exec_write_held hrst, fun hrst i hread => ?_⟩
  · refine ⟨_, step_listed s _ rest h, rfl, rfl, rfl, rfl, rfl, rfl, rfl, rfl, rfl, rfl, rfl, rfl, rfl, rfl, rfl, rfl,
      rfl, rfl, rfl, rfl, ?_, fun i => ?_⟩
    · exact exec_rdStatus_reset (assertRst_block _)
    · exact exec_read_reset (assertRst_block _)
  · rw [step_listed s _ rest h]
    exact tickEvent_held hrst
  · obtain ⟨v, e⟩ := readsChangeNoState i s hread
    exact ⟨_, e, rfl, hrst⟩

/-! ## A reset in the middle of a transaction (R261) -/

/-- Settles O31: the reset block has no timestamp, so the gate is open to the POLL that follows the release. -/
theorem resetAbandonsATransaction : Obligations.ResetAbandonsATransaction := by
  intro s d now rest hd h
  have hassert := step_listed s _ _ h
  have hrelease := step_listed (assertRst { s with inbox := .rstRelease :: .access 0x85 d now :: rest }) _ _ rfl
  have hpoll := step_listed_access (releaseRst (assertRst { s with inbox := .access 0x85 d now :: rest })) _ _ _ _ rfl
  rw [decode_of_write 0x85 d rfl rfl rfl rfl] at hpoll
  exact ⟨_, _, _, hassert, rfl, rfl, rfl, rfl, rfl, rfl, rfl, rfl, hrelease, rfl, rfl,
    hpoll.trans (exec_wrCmd_accepted rfl hd rfl (.inl rfl)), rfl, rfl, rfl⟩

end Sys2Proof.Machine
end

