-- ==== Sys2Proof/Proofs/Records.lean ====
section
/-! What a step without a reset leaves of the reading, the timestamp, the outcome and the configuration
(70_reset_and_hazards.md R264, R267). -/

namespace Sys2Proof.Machine

/-! ## The stored reading (10_state.md R29 to R31) -/

/-- The stored reading stays as it is. -/
def Block.ReadingKept (b c : Block) : Prop := c.hum = b.hum ∧ c.temp = b.temp ∧ c.rdValid = b.rdValid

/-- BIT_HIGH ends the transaction with Success. -/
def Block.Succeeds (b c : Block) : Prop := b.phase = .bitHigh ∧ c.phase = .idle ∧ c.result = .success

theorem TickStep.reading_cases {v : Level} {b c : Block} (h : TickStep v b c) : b.ReadingKept c ∨ b.Succeeds c := by
  cases h with
  | lastBit hp _ bit _ _ f _ =>
    rcases Block.finalize_cases params { b.timerAdvance with frame := f, bitIdx := b.bitIdx + 1 } with ⟨_, e⟩ | ⟨_, e⟩
    · rw [e]; exact .inr ⟨hp, rfl, rfl⟩
    · rw [e]; exact .inl ⟨rfl, rfl, rfl⟩
  | _ => exact .inl ⟨rfl, rfl, rfl⟩

theorem BlockStep.reading_cases {b c : Block} (h : BlockStep b c) : b.ReadingKept c ∨ b.Succeeds c := by
  cases h with
  | tick h => exact h.reading_cases
  | _ => exact .inl ⟨rfl, rfl, rfl⟩

/-! ## The timestamp (10_state.md R32, R33) and the outcome (10_state.md R27, R28) -/

/-- The gate's timestamp and the outcome stay as they are. -/
def Block.RecordKept (b c : Block) : Prop :=
  c.lastPoll = b.lastPoll ∧ c.lastValid = b.lastValid ∧ c.result = b.result ∧ c.polled = b.polled

/-- A transaction ends and is recorded with the time latched at its acceptance (60_exceptions.md R232). -/
def Block.Recorded (b c : Block) : Prop := b.phase ≠ .idle ∧ c.phase = .idle ∧ c.lastPoll = b.nowLatch

/-- A rejected POLL leaves the timestamp (40_poll_gate.md R103). -/
def Block.Rejected (b c : Block) : Prop :=
  c.phase = .idle ∧ c.result = .pollingIntervalError ∧ c.lastPoll = b.lastPoll ∧ c.lastValid = b.lastValid

theorem TickStep.record_cases {v : Level} {b c : Block} (h : TickStep v b c) : b.RecordKept c ∨ b.Recorded c := by
  cases h with
  | timeout hp => exact .inr ⟨Phase.ne_idle_of_timed hp, rfl, rfl⟩
  | ackFailed hp => exact .inr ⟨by rcases hp with ⟨hp, _⟩ | ⟨hp, _⟩ | ⟨hp, _⟩ <;> simp [hp], rfl, rfl⟩
  | sepFailed hp | pulseFailed hp => exact .inr ⟨by simp [hp], rfl, rfl⟩
  | lastBit hp => exact .inr ⟨by simp [hp], Block.finalize_phase _ _, Block.finalize_lastPoll _ _⟩
  | _ => exact .inl ⟨rfl, rfl, rfl, rfl⟩

theorem BlockStep.record_cases {b c : Block} (h : BlockStep b c) :
    b.RecordKept c ∨ b.Recorded c ∨ b.Rejected c := by
  cases h with
  | tick h => exact h.record_cases.imp_right .inl
  | reject hi => exact .inr (.inr ⟨hi, rfl, rfl, rfl⟩)
  | same | configure | accept => exact .inl ⟨rfl, rfl, rfl, rfl⟩

/-- Settles O53: without a reset, a step that changes the reading is a Success, one that changes the timestamp ends a
transaction, and one that changes the outcome ends a transaction or rejects a POLL. -/
theorem resultsChangeOnlyAtTheEnd : Obligations.ResultsChangeOnlyAtTheEnd := by
  intro s t h hne
  rcases step_block_cases h with ⟨he, _⟩ | ⟨_, hb, _⟩
  · exact absurd he hne
  · refine ⟨fun hchange => ?_, fun hchange => ?_, fun hchange => ?_⟩
    · rcases hb.reading_cases with ⟨hhum, htemp, hvalid⟩ | hsuccess
      · simp [hhum, htemp, hvalid] at hchange
      · exact hsuccess
    · rcases hb.record_cases with ⟨hlast, hvalid, _⟩ | hend | ⟨_, _, hlast, hvalid⟩
      · simp [hlast, hvalid] at hchange
      · exact hend
      · simp [hlast, hvalid] at hchange
    · rcases hb.record_cases with ⟨_, _, hresult, hpolled⟩ | ⟨hbusy, hidle, _⟩ | ⟨hidle, hresult, _⟩
      · simp [hresult, hpolled] at hchange
      · exact ⟨hidle, .inl hbusy⟩
      · exact ⟨hidle, .inr hresult⟩

/-! ## The configuration (10_state.md R35, R36) -/

/-- Both configuration bits stay as they are. -/
def Block.ConfigKept (b c : Block) : Prop := c.cfgSignSrc = b.cfgSignSrc ∧ c.cfgSepErrStop = b.cfgSepErrStop

theorem Block.finalize_configKept (p : Params) (b : Block) : b.ConfigKept (b.finalize p) := by
  rcases Block.finalize_cases p b with ⟨_, e⟩ | ⟨_, e⟩ <;> rw [e] <;> exact ⟨rfl, rfl⟩

theorem TickStep.configKept {v : Level} {b c : Block} (h : TickStep v b c) : b.ConfigKept c := by
  cases h with
  | lastBit => exact Block.finalize_configKept _ _
  | _ => exact ⟨rfl, rfl⟩

/-- Outside IDLE the configuration is frozen. -/
theorem BlockStep.configKept_of_busy {b c : Block} (h : BlockStep b c) (busy : b.phase ≠ .idle) : b.ConfigKept c := by
  cases h with
  | same => exact ⟨rfl, rfl⟩
  | tick h => exact h.configKept
  | configure hi | accept hi | reject hi => exact absurd hi busy

/-- A tick event changes the block by a decoder tick or, while rst is asserted, not at all. -/
theorem step_block_of_tick {s t : State} {v : Level} (h : step s = .next t) (hv : nextEvent s = .tick v) :
    t.block = s.block ∨ TickStep v s.block t.block := by
  rcases step_next_cases h with ⟨w, he, _, ⟨_, hb⟩ | ⟨_, hb⟩⟩ | ⟨_, _, _, he, _⟩ | ⟨he, _⟩ | ⟨he, _⟩
  · exact .inl hb
  · cases hv.symm.trans he
    exact .inr (Block.tick_ok hb)
  all_goals cases hv.symm.trans he

/-- Settles O55: a busy block ignores a CFG write, and no tick writes the configuration. -/
theorem configIsFrozenDuringATransaction : Obligations.ConfigIsFrozenDuringATransaction := by
  rintro s t h hne (busy | ⟨v, hv⟩)
  · rcases step_block_cases h with ⟨he, _⟩ | ⟨_, hb, _⟩
    · exact absurd he hne
    · exact hb.configKept_of_busy busy
  · rcases step_block_of_tick h hv with hb | hb
    · rw [hb]; exact ⟨rfl, rfl⟩
    · exact hb.configKept

end Sys2Proof.Machine
end

