-- ==== Sys2Proof/Proofs/Durations.lean ====
section
/-! How long a transaction takes (70_reset_and_hazards.md R272): each phase is entered inside a window of ticks counted
from the acceptance, and a frame whose checksum holds has at least two 0 bits. -/

namespace Sys2Proof.Machine

/-! ## No outcome takes more than 7592 ticks -/

/-- A run comes to its end no later than on its last sample. -/
theorem EndsAt.le_length {samples : List Level} {b c : Block} {n : Nat} (h : EndsAt samples b n c) :
    n ≤ samples.length := by
  by_contra hlt
  have htake : samples.take samples.length = samples.take n := by
    rw [List.take_length, List.take_of_length_le (by omega)]
  exact h.first samples.length c (by omega) (htake ▸ h.run) h.idle

/-- The end is the first tick at which the block is in IDLE. -/
theorem EndsAt.le_of_idle {samples : List Level} {b c d : Block} {n m : Nat} (h : EndsAt samples b n c)
    (hd : runTicks (samples.take m) b = .ok d) (idle : d.phase = .idle) : n ≤ m :=
  not_lt.mp fun hm => h.first m d hm hd idle

theorem runTicks_singleton (v : Level) (b : Block) : runTicks [v] b = b.tick params v := by
  unfold runTicks
  cases b.tick params v <;> rfl

/-- A busy block comes to its end by one tick of a busy block. -/
theorem EndsAt.exists_last_tick {samples : List Level} {b c : Block} {n : Nat} (h : EndsAt samples b n c)
    (busy : b.phase ≠ .idle) :
    ∃ xs v d, n = xs.length + 1 ∧ runTicks xs b = .ok d ∧ d.phase ≠ .idle ∧ d.tick params v = .ok c := by
  have hlength := h.le_length
  have hrun := h.run
  cases n with
  | zero => cases hrun; exact absurd h.idle busy
  | succ m =>
    obtain ⟨d, hd, hbusy⟩ := h.busy_before (Nat.lt_succ_self m)
    rw [← List.take_concat_get' samples m hlength, runTicks_append_ok hd, runTicks_singleton] at hrun
    exact ⟨samples.take m, samples[m], d, by rw [List.length_take_of_le (by omega)], hd, hbusy, hrun⟩

theorem EndsAt.le_longest {samples : List Level} {b c : Block} {now : Seconds} {n : Nat}
    (h : EndsAt samples (b.acceptPoll now) n c) : n ≤ 7592 := by
  by_contra hlong
  have hlength := h.le_length
  obtain ⟨m, d, hm, hd, hidle, _⟩ :=
    everyTransactionEnds b now (samples.take 7592) (List.length_take_of_le (by omega))
  rw [List.take_take, Nat.min_eq_left hm] at hd
  have hn := h.le_of_idle hd hidle
  omega

/-! ## The ones of a frame whose checksum holds -/

/-- Bits with at most one 0 among them: all ones, or all ones but at the place `i`. -/
theorem exists_eq_set_false_of_count_le {bits : List Bool} (h : bits.count false ≤ 1) :
    ∃ i ≤ bits.length, bits = (List.replicate bits.length true).set i false := by
  induction bits with
  | nil => exact ⟨0, le_rfl, rfl⟩
  | cons bit bits ih =>
    cases bit with
    | true =>
      obtain ⟨i, hi, e⟩ := ih (by simpa using h)
      exact ⟨i + 1, Nat.succ_le_succ hi, congrArg (true :: ·) e⟩
    | false =>
      have hones : bits = List.replicate bits.length true :=
        List.eq_replicate_of_mem fun bit hbit => by
          have hnone : false ∉ bits := List.count_eq_zero.mp (by simpa using h)
          cases bit with
          | true => rfl
          | false => exact absurd hbit hnone
      exact ⟨0, Nat.zero_le _, congrArg (false :: ·) hones⟩

/-- No frame of 40 ones, and none with a single 0 at the place `i`, passes the checksum (R272). The place 40 is past the
end and leaves the 40 ones. -/
theorem frameCode_ne_success_of_set_false :
    ∀ i ≤ 40, frameCode ((List.replicate 40 true).set i false) ≠ .success := by
  decide

/-- The most ones that a checksum-valid frame can carry are 38. -/
theorem count_true_le_of_success {bits : List Bool} (hlen : bits.length = 40) (h : frameCode bits = .success) :
    bits.count true ≤ 38 := by
  have hsum := List.count_true_add_count_false bits
  by_contra hmany
  obtain ⟨i, hi, e⟩ := exists_eq_set_false_of_count_le (bits := bits) (by omega)
  rw [hlen] at hi e
  exact frameCode_ne_success_of_set_false i hi (e ▸ h)

/-! ## The windows of the phases -/

/-- The fewest ticks from the acceptance to the entry of a phase with `k` bits received: 1000 of the request, the least
of each window passed (10, 70, 70; 40), and 40 + 16 for each bit cell. -/
def Phase.earliestEntry (k : Nat) : Phase → Nat
  | .idle | .reqLow => 56 * k
  | .awaitAck => 1000 + 56 * k
  | .ackLow => 1010 + 56 * k
  | .ackHigh => 1080 + 56 * k
  | .bitSep => 1150 + 56 * k
  | .bitHigh => 1190 + 56 * k

/-- The most ticks from the acceptance to the entry of a phase with `k` bits received, `ones` of them ones: 1000 of the
request, the most of each window passed (200, 110, 100; 70), and 70 + 34 or 70 + 79 for each bit cell. -/
def Phase.latestEntry (k ones : Nat) : Phase → Nat
  | .idle | .reqLow => 104 * k + 45 * ones
  | .awaitAck => 1000 + 104 * k + 45 * ones
  | .ackLow => 1200 + 104 * k + 45 * ones
  | .ackHigh => 1310 + 104 * k + 45 * ones
  | .bitSep => 1410 + 104 * k + 45 * ones
  | .bitHigh => 1480 + 104 * k + 45 * ones

/-- The block is `m` ticks past the acceptance at `now`, with these bits received, and has entered its present phase
inside that phase's window. -/
structure Block.OnTime (b : Block) (now : Seconds) (bits : List Bool) (m : Nat) : Prop where
  inTransaction : b.InTransaction now
  holds : b.frame.Holds bits
  count : b.bitIdx.toNat = bits.length
  earliest : b.phase.earliestEntry bits.length + b.ticksSpent ≤ m
  latest : m ≤ b.phase.latestEntry bits.length (bits.count true) + b.ticksSpent

/-- A pulse that stands for a bit is at least 16 ticks long, and at most 34 or 79 (42_bit_decode.md R154). -/
theorem pulse_bounds {t : Nat} {bit : Bool} (h : classify params t = some bit) :
    16 ≤ t ∧ t ≤ 34 + 45 * [bit].count true := by
  cases bit with
  | false => exact (classify_eq_some_false_iff t).mp h
  | true =>
    obtain ⟨hlo, hhi⟩ := (classify_eq_some_true_iff t).mp h
    exact ⟨by omega, hhi⟩

/-- Finalize ends with Success exactly where the checksum holds (43_finalize_checksum_convert.md R172). -/
theorem Block.finalize_result_eq_success_iff (p : Params) (b : Block) :
    (b.finalize p).result = .success ↔ checksum p b.frame = b.frame[4] := by
  rcases Block.finalize_cases p b with ⟨hck, e⟩ | ⟨hck, e⟩ <;> simp [e, hck]

/-- A tick that ends the transaction with Success takes the 40th bit of a frame whose checksum holds
(43_finalize_checksum_convert.md R170, R172). -/
theorem TickStep.lastBit_of_success {v : Level} {b c : Block} (h : TickStep v b c) (busy : b.phase ≠ .idle)
    (idle : c.phase = .idle) (success : c.result = .success) :
    b.phase = .bitHigh ∧ ∃ bit, classify params b.tc.toNat = some bit ∧ b.bitIdx.toNat = 39 ∧
      ∃ f, appendBit b.bitIdx bit b.frame = .ok f ∧ checksum params f = f[4] := by
  cases h with
  | idle | hold | stay => exact absurd idle busy
  | timeout =>
    obtain ⟨hne, _⟩ := b.phase.timeoutCode_aborts
    exact absurd success hne
  | ackFailed | sepFailed | pulseFailed => cases success
  | lastBit hp _ bit hbit hk f hf =>
    have hck := (Block.finalize_result_eq_success_iff _ _).mp success
    exact ⟨hp, bit, hbit, hk, f, hf, hck⟩
  | _ => cases idle

namespace Block.InTransaction

variable {b : Block} {now : Seconds}

theorem ticksSpent_add_one (h : b.InTransaction now) (hp : b.phase.timed = true) : b.ticksSpent + 1 = b.tc.toNat := by
  rw [Block.ticksSpent_of_timed hp, h.tc_eq hp]

theorem ticksSpent_hold (h : b.InTransaction now) (hp : b.phase = .reqLow) {c : Block} (hc : c.phase = .reqLow)
    (hn : c.holdCnt = b.holdCnt + 1) : c.ticksSpent = b.ticksSpent + 1 := by
  have hcnt := h.holding hp
  rw [Block.ticksSpent_of_reqLow hp, Block.ticksSpent_of_reqLow hc, hn]
  bv_omega

end Block.InTransaction

namespace Block.OnTime

variable {b c : Block} {now : Seconds} {bits : List Bool} {m : Nat} {v : Level}

/-- One more tick in the same phase. -/
theorem wait (h : b.OnTime now bits m) (hc : c.InTransaction now) (hp : c.phase = b.phase) (hf : c.frame = b.frame)
    (hk : c.bitIdx = b.bitIdx) (hs : c.ticksSpent = b.ticksSpent + 1) : c.OnTime now bits (m + 1) where
  inTransaction := hc
  holds := hf ▸ h.holds
  count := hk ▸ h.count
  earliest := by have := h.earliest; rw [hp, hs]; omega
  latest := by have := h.latest; rw [hp, hs]; omega

/-- The entry of a timed phase inside its window. -/
theorem enter (h : b.OnTime now bits m) (hc : c.InTransaction now) (hp : c.phase.timed = true) (h0 : c.tmrCnt = 0)
    {bits' : List Bool} (hf : c.frame.Holds bits') (hk : c.bitIdx.toNat = bits'.length)
    (early : c.phase.earliestEntry bits'.length ≤ b.phase.earliestEntry bits.length + (b.ticksSpent + 1))
    (late : b.phase.latestEntry bits.length (bits.count true) + (b.ticksSpent + 1) ≤
      c.phase.latestEntry bits'.length (bits'.count true)) : c.OnTime now bits' (m + 1) := by
  have hs : c.ticksSpent = 0 := by rw [Block.ticksSpent_of_timed hp, h0]; rfl
  have hearliest := h.earliest
  have hlatest := h.latest
  exact ⟨hc, hf, hk, by omega, by omega⟩

/-- The appended bit stands in its place. -/
theorem holds_append (h : b.OnTime now bits m) {bit : Bool} {f : Frame}
    (hf : appendBit b.bitIdx bit b.frame = .ok f) : f.Holds (bits ++ [bit]) := by
  have hk := h.count
  have hleft := h.inTransaction.bits_left
  obtain ⟨g, hg, hholds⟩ := appendBit_holds h.holds (by omega) bit
  rw [← hk, BitVec.ofNat_toNat, BitVec.setWidth_eq] at hg
  cases hf.symm.trans hg
  exact hholds

/-- Every tick that does not end the transaction keeps it on time. -/
theorem tick (h : b.OnTime now bits m) (hc : TickStep v b c) (busy : c.phase ≠ .idle) :
    ∃ bits', c.OnTime now bits' (m + 1) := by
  have ht := h.inTransaction
  have hin : c.InTransaction now := by
    rcases ht.tick hc with ⟨hidle, _⟩ | ⟨hin, _⟩
    · exact absurd hidle busy
    · exact hin
  cases hc with
  | idle hp => exact absurd hp ht.busy
  | timeout | ackFailed | sepFailed | pulseFailed => exact absurd rfl busy
  | lastBit => exact absurd (Block.finalize_phase _ _) busy
  | hold hp => exact ⟨bits, h.wait hin rfl rfl rfl (ht.ticksSpent_hold hp hp rfl)⟩
  | stay hp =>
    refine ⟨bits, h.wait hin rfl rfl rfl ?_⟩
    rw [ht.ticksSpent_add_one hp]
    exact Block.ticksSpent_of_timed hp
  | arm hp hn =>
    refine ⟨bits, h.enter hin rfl rfl h.holds h.count ?_ ?_⟩
    all_goals
      rw [Block.ticksSpent_of_reqLow hp, show b.holdCnt.toNat + 1 = 1000 by bv_omega, hp]
      dsimp only [Block.releaseAndArm_phase, Phase.earliestEntry, Phase.latestEntry]
      omega
  | ackLow hp _ htc | ackHigh hp _ htc | bitSep hp _ htc | bitHigh hp _ htc =>
    refine ⟨bits, h.enter hin rfl rfl h.holds h.count ?_ ?_⟩
    all_goals
      rw [ht.ticksSpent_add_one (hp ▸ rfl), hp]
      dsimp only [Block.enterTimed_phase, Phase.earliestEntry, Phase.latestEntry]
      omega
  | nextBit hp _ bit hbit hk f hf =>
    have htc := pulse_bounds hbit
    have hcount := h.count
    have hlen : (bits ++ [bit]).length = bits.length + 1 := List.length_append
    have hones : (bits ++ [bit]).count true = bits.count true + [bit].count true := List.count_append
    have hadd : (b.bitIdx + 1).toNat = (bits ++ [bit]).length := by bv_omega
    refine ⟨bits ++ [bit], h.enter hin rfl rfl (h.holds_append hf) hadd ?_ ?_⟩
    all_goals
      rw [ht.ticksSpent_add_one (hp ▸ rfl), hp]
      dsimp only [Block.enterTimed_phase, Phase.earliestEntry, Phase.latestEntry]
      omega

/-- A run that has not ended is on time. -/
theorem run {xs : List Level} (h : b.OnTime now bits m) (hc : runTicks xs b = .ok c) (busy : c.phase ≠ .idle) :
    ∃ bits', c.OnTime now bits' (m + xs.length) := by
  induction xs generalizing b bits m with
  | nil => cases hc; exact ⟨bits, h⟩
  | cons x xs ih =>
    obtain ⟨d, hd, hstep⟩ := Block.tick_isOk x b fun _ => Nat.lt_succ_of_le h.inTransaction.bits_left
    rw [runTicks_cons_ok hd] at hc
    obtain ⟨bits', h'⟩ := h.tick hstep fun hidle => busy (runTicks_idle hc hidle)
    rw [List.length_cons, Nat.add_comm xs.length, ← Nat.add_assoc]
    exact ih h' hc

/-- The last tick of a transaction that succeeds. -/
theorem success_bounds (h : b.OnTime now bits m) (hc : TickStep v b c) (idle : c.phase = .idle)
    (success : c.result = .success) : 3390 ≤ m + 1 ∧ m + 1 ≤ 7280 := by
  obtain ⟨hp, bit, hbit, hk, f, hf, hck⟩ := hc.lastBit_of_success h.inTransaction.busy idle success
  have hcount := h.count
  have hlen : (bits ++ [bit]).length = 40 := by rw [List.length_append, List.length_singleton]; omega
  have hones : (bits ++ [bit]).count true ≤ 38 :=
    count_true_le_of_success hlen (by rw [(h.holds_append hf).frameCode hlen, if_pos hck])
  have htc := pulse_bounds hbit
  have hspent := h.inTransaction.ticksSpent_add_one (hp ▸ rfl)
  have hearliest := h.earliest
  have hlatest := h.latest
  rw [List.count_append] at hones
  rw [hp, ← hcount, hk, Phase.earliestEntry] at hearliest
  rw [hp, ← hcount, hk, Phase.latestEntry] at hlatest
  exact ⟨by omega, by omega⟩

end Block.OnTime

theorem Block.acceptPoll_onTime (b : Block) (now : Seconds) : (b.acceptPoll now).OnTime now [] 0 where
  inTransaction := b.acceptPoll_inTransaction now
  holds := fun k _ hk => absurd hk (Nat.not_lt_zero k)
  count := rfl
  earliest := le_rfl
  latest := le_rfl

/-- A transaction that ends with Success passes every window, and not every bit of its frame is a one. -/
theorem EndsAt.success_bounds {samples : List Level} {b c : Block} {now : Seconds} {n : Nat}
    (h : EndsAt samples (b.acceptPoll now) n c) (success : c.result = .success) : 3390 ≤ n ∧ n ≤ 7280 := by
  obtain ⟨xs, v, d, rfl, hd, busy, hlast⟩ := h.exists_last_tick nofun
  obtain ⟨bits, hd⟩ := (b.acceptPoll_onTime now).run hd busy
  rw [Nat.zero_add] at hd
  exact hd.success_bounds (Block.tick_ok hlast) h.idle success

/-- Settles O60: every end is among the first 7592 ticks, and a Success is on time at its last tick. -/
theorem transactionDurations : Obligations.TransactionDurations :=
  fun _ _ _ _ _ h => ⟨h.le_longest, h.success_bounds⟩

end Sys2Proof.Machine
end
